-- ==== Sys2Proof/Word.lean ====
section
/-! DEFINITION. The word types of the line code encoder (00_scope.md R9, R10): every value is unsigned, bit 0 is the
least significant. -/

namespace Sys2Proof

/-- A command word, and the exception information word (CMD_W = 32, R9). -/
abbrev Word := BitVec 32

/-- A 16-bit counter or count field (COUNT_W, CNT_W, REP_W, R9). -/
abbrev Half := BitVec 16

/-- A stream element (ELEM_W = 8, R9). -/
abbrev Byte := BitVec 8

/-- A chip, or one decomposed bit: "a single binary sample value (0 or 1)" (R14). -/
abbrev Chip := BitVec 1

end Sys2Proof
end

