-- ==== Sys2Proof/Config.lean ====
section
/-! DEFINITION. The configuration constants of 00_scope.md R8: fixed when the block is built, written by no step and
left alone by reset (R7, R36). The three the spec leaves open (92_eei_decisions.md D10, D15) are the fields of `Config`;
the others are constants (log 17). -/

namespace Sys2Proof

/-- The open parameters of R8: what a builder of the block may choose. -/
structure Config where
  /-- `REPEAT_NUM`: repetitions per burst. -/
  repeatNum : Nat
  /-- `DEAD_AIR_LEN`: chips of dead air leading each repetition. -/
  deadAirLen : Nat
  /-- `SKIP_BAD_SYMBOL`: false, an invalid symbol is an exception (R233); true, it is skipped (R176). -/
  skipBadSymbol : Bool
deriving DecidableEq, Repr

namespace Config

/-- The values this hardware takes (R8). -/
def hardware : Config := { repeatNum := 20, deadAirLen := 40, skipBadSymbol := false }

/-- The admissible ranges of the two open numbers (R9). -/
abbrev Admissible (c : Config) : Prop := c.repeatNum ≤ 65535 ∧ c.deadAirLen ≤ 65491

/-- `CW_LEN`. -/
def cwLen : Nat := 4

/-- A codeword: "a fixed 4-chip sequence" (R14). -/
abbrev Codeword := Vector Chip 4

/-- `CW_ZERO`, the codeword of logical bit 0 (R8, R60). -/
def cwZero : Codeword := #v[0, 1, 1, 1]

/-- `CW_ONE`, the codeword of logical bit 1 (R8, R60). -/
def cwOne : Codeword := #v[0, 0, 1, 1]

/-- `CW_X`, the X-STATE marker (R8, R60). -/
def cwX : Codeword := #v[0, 0, 0, 1]

/-- `DATA1_N`: data codewords between the first and the mid-burst marker. -/
def data1N : Nat := 6

/-- `DATA2_N`: data codewords between the mid-burst and the trailing marker. -/
def data2N : Nat := 2

/-- `DEAD_AIR_CHIP`. -/
def deadAirChip : Chip := 0

/-- `SILENCE_LEN`: zero bytes before and after a frame. -/
def silenceLen : Nat := 10

/-- `SILENCE_BYTE`. -/
def silenceByte : Byte := 0x00

/-- `HDR_LEN`: bytes of the optional length header. -/
def hdrLen : Nat := 4

/-- `REP_LEN = DEAD_AIR_LEN + 4*(DATA1_N + DATA2_N) + 3*4` (R8). -/
def repLen (c : Config) : Nat := c.deadAirLen + cwLen * (data1N + data2N) + 3 * cwLen

/-- `BURST_LEN = REPEAT_NUM * REP_LEN` (R8). -/
def burstLen (c : Config) : Nat := c.repeatNum * c.repLen

end Config

end Sys2Proof
end

