-- ==== Sys2Proof/Syntax.lean ====
section
/-! DEFINITION. The four commands (30_encoding.md R96), one constructor per row of opcode_table.json, and the
assembler's lines (R108 to R110), whose operands are numbers not yet checked against their fields. -/

namespace Sys2Proof

/-- A legal command with its operands as the fields of its word hold them (R92 to R96). Every value of every field is
legal (R97), so an `Instr` is well formed by its type: a code above 255 or a payload above 255 bytes "cannot be
expressed" (R162, R213, R235). -/
inductive Instr where
  /-- `DECOMP code` (R160). -/
  | decomp (code : Byte)
  /-- `ENC count` (R171). -/
  | enc (count : Half)
  /-- `BURST code` (R178). -/
  | burst (code : Byte)
  /-- `FRAME prelen, paylen, hdr, csum` (R200). -/
  | frame (prelen paylen : Byte) (hdr csum : Bool)
deriving DecidableEq, Repr

/-- One command as the assembler's text gives it (R108), the pseudo-commands included (R109). -/
inductive AsmCommand where
  | decomp (code : Nat)
  | enc (count : Nat)
  | burst (code : Nat)
  | frame (prelen paylen hdr csum : Nat)
  | frameRaw (prelen paylen : Nat)
  | frameL (prelen paylen : Nat)
  | frameC (prelen paylen : Nat)
  | frameLC (prelen paylen : Nat)
  /-- `.word w`: "the 32-bit word w as given". -/
  | word (w : Nat)
deriving DecidableEq, Repr

/-- One line of a test program (R108 to R110). -/
inductive AsmLine where
  | command (c : AsmCommand)
  /-- `.in b0, b1, ...` -/
  | input (bytes : List Nat)
  /-- `.reset` -/
  | reset
deriving DecidableEq, Repr

end Sys2Proof
end

