-- ==== Sys2Proof/WellFormed.lean ====
section
/-! DEFINITION. The checks the spec makes: the legality predicate of command words (30_encoding.md R97) and the
assembler's range check of operands (R108). An `Instr` itself carries no check: every field value is legal (R97). -/

namespace Sys2Proof

/-- `legal(w)`: exactly one row of R96 matches w under its mask (R97). -/
def legal (w : Word) : Bool :=
  w &&& 0xFFFFFF00#32 == 0x10000000#32
    || w &&& 0xFFFF0000#32 == 0x20000000#32
    || w &&& 0xFFFFFF00#32 == 0x30000000#32
    || w &&& 0xFFFC0000#32 == 0x40000000#32

/-- The range checks of the assembler, one per operand: it "refuses an operand that does not fit its field (a code
above 255, a count above 65535, a length above 255, a flag other than 0 or 1)" (R108). -/
def AsmCommand.fits : AsmCommand → Bool
  | .decomp code => decide (code ≤ 255)
  | .enc count => decide (count ≤ 65535)
  | .burst code => decide (code ≤ 255)
  | .frame prelen paylen hdr csum =>
    decide (prelen ≤ 255) && decide (paylen ≤ 255) && decide (hdr ≤ 1) && decide (csum ≤ 1)
  | .frameRaw prelen paylen => decide (prelen ≤ 255) && decide (paylen ≤ 255)
  | .frameL prelen paylen => decide (prelen ≤ 255) && decide (paylen ≤ 255)
  | .frameC prelen paylen => decide (prelen ≤ 255) && decide (paylen ≤ 255)
  | .frameLC prelen paylen => decide (prelen ≤ 255) && decide (paylen ≤ 255)
  | .word w => decide (w < 2 ^ 32)

/-- A line fits when its command does, or when every byte of its `.in` list is a byte (R108, R110). -/
def AsmLine.fits : AsmLine → Bool
  | .command c => c.fits
  | .input bytes => bytes.all fun b => decide (b ≤ 255)
  | .reset => true

end Sys2Proof
end

