-- ==== Sys2Proof/Decode.lean ====
section
/-! DEFINITION. Command words: the fields of 30_encoding.md R91 to R95, the decoder (R96 to R98), the encoder and the
assembler's word for a line (R108, R109). -/

namespace Sys2Proof

/-! ### Fields (R91 to R95) -/

/-- `cmd[31:28]` (R91). -/
def opcField (w : Word) : BitVec 4 := w.extractLsb' 28 4

/-- `CODE = cmd[7:0]` (R92, R95). -/
def codeField (w : Word) : Byte := w.extractLsb' 0 8

/-- `COUNT = cmd[15:0]` (R93, R95). -/
def countField (w : Word) : Half := w.extractLsb' 0 16

/-- `PAYLEN = cmd[7:0]` (R94, R95). -/
def paylenField (w : Word) : Byte := w.extractLsb' 0 8

/-- `PRELEN = cmd[15:8]` (R94, R95). -/
def prelenField (w : Word) : Byte := w.extractLsb' 8 8

/-- `HDR = cmd[16]` (R94, R95). -/
def hdrField (w : Word) : Bool := w.getLsbD 16

/-- `CSUM = cmd[17]` (R94, R95). -/
def csumField (w : Word) : Bool := w.getLsbD 17

/-- The reserved bits 27:8 of format C (R92). -/
def reservedC (w : Word) : BitVec 20 := w.extractLsb' 8 20

/-- The reserved bits 27:16 of format N (R93). -/
def reservedN (w : Word) : BitVec 12 := w.extractLsb' 16 12

/-- The reserved bits 27:18 of format F (R94). -/
def reservedF (w : Word) : BitVec 10 := w.extractLsb' 18 10

/-! ### Decoding (R96 to R98) -/

/-- Why a word is an illegal command (R98). Both reasons raise `ILLEGAL_CMD` at the word's Accept (R234). -/
inductive Reject where
  /-- `OPC` 0x0 or 0x5 to 0xF. -/
  | unknownOpcode (opc : BitVec 4)
  /-- `OPC` 0x1 to 0x4 with a reserved bit set. -/
  | reservedBitSet (opc : BitVec 4)
deriving DecidableEq, Repr

/-- The command a word stands for, or why it stands for none (R96, R98). Total on all words. -/
def decode (w : Word) : Except Reject Instr :=
  if opcField w = 0x1 then
    if reservedC w = 0 then .ok (.decomp (codeField w)) else .error (.reservedBitSet 0x1)
  else if opcField w = 0x2 then
    if reservedN w = 0 then .ok (.enc (countField w)) else .error (.reservedBitSet 0x2)
  else if opcField w = 0x3 then
    if reservedC w = 0 then .ok (.burst (codeField w)) else .error (.reservedBitSet 0x3)
  else if opcField w = 0x4 then
    if reservedF w = 0 then
      .ok (.frame (prelenField w) (paylenField w) (hdrField w) (csumField w))
    else .error (.reservedBitSet 0x4)
  else .error (.unknownOpcode (opcField w))

/-- The command of a word numbered as the opcode table numbers it: a command is one 32-bit word, transferred whole
(R90), so the table's bit k is the word's bit k and there is no byte order to apply (R67 (d)). -/
def decodeTableWord (nbits w : Nat) : Option Instr :=
  (decode (BitVec.ofNat 32 (w % 2 ^ nbits))).toOption

/-! ### Encoding (R92 to R94, R108) -/

/-- A flag as a word. -/
def flagWord (b : Bool) : Word := if b then 1 else 0

/-- The word of a command: "`OPC << 28` or-ed with the fields at the positions of rules R92 to R94" (R108). -/
def encode : Instr → Word
  | .decomp code => 0x10000000#32 ||| code.setWidth 32
  | .enc count => 0x20000000#32 ||| count.setWidth 32
  | .burst code => 0x30000000#32 ||| code.setWidth 32
  | .frame prelen paylen hdr csum =>
    0x40000000#32 ||| flagWord csum <<< 17 ||| flagWord hdr <<< 16 ||| prelen.setWidth 32 <<< 8
      ||| paylen.setWidth 32

/-! ### Assembling (R108, R109) -/

/-- The command an operand list that fits stands for; a pseudo-command is its `FRAME` (R109). `.word` stands for none. -/
def AsmCommand.instr : AsmCommand → Option Instr
  | .decomp code => some (.decomp (BitVec.ofNat 8 code))
  | .enc count => some (.enc (BitVec.ofNat 16 count))
  | .burst code => some (.burst (BitVec.ofNat 8 code))
  | .frame prelen paylen hdr csum =>
    some (.frame (BitVec.ofNat 8 prelen) (BitVec.ofNat 8 paylen) (hdr == 1) (csum == 1))
  | .frameRaw prelen paylen => some (.frame (BitVec.ofNat 8 prelen) (BitVec.ofNat 8 paylen) false false)
  | .frameL prelen paylen => some (.frame (BitVec.ofNat 8 prelen) (BitVec.ofNat 8 paylen) true false)
  | .frameC prelen paylen => some (.frame (BitVec.ofNat 8 prelen) (BitVec.ofNat 8 paylen) false true)
  | .frameLC prelen paylen => some (.frame (BitVec.ofNat 8 prelen) (BitVec.ofNat 8 paylen) true true)
  | .word _ => none

/-- The word the assembler gives for a line, or none: it "refuses an operand that does not fit its field; it never
truncates" (R108). -/
def assemble (c : AsmCommand) : Option Word :=
  if c.fits then
    match c with
    | .word w => some (BitVec.ofNat 32 w)
    | c => c.instr.map encode
  else none

end Sys2Proof
end

