-- ==== Sys2Proof/Machine/State.lean ====
section
/-! DEFINITION. The state of the block (10_state.md R20), the environment it is joined to (20_memory.md R64, R65,
40_command_execution.md R130), and the state right after reset (R39, R261). -/

namespace Sys2Proof.Machine

/-- The twelve phases of the sequencer (R24). -/
inductive Phase where
  | idle
  | dec
  | enc
  | eDrain
  | burst
  | fLead
  | fPre
  | fHdr
  | fPay
  | fCsum
  | fTrail
  /-- `END`: emits the END beat. -/
  | finish
deriving DecidableEq, Repr

/-- The registers of the block: "the complete state of the block is the following registers and nothing else" (R20). -/
structure Block where
  /-- `CMD`: the command word being executed (R21). -/
  cmd : Word
  /-- `SYM`: the input byte popped and not yet fully used (R22). -/
  sym : Byte
  /-- `ACC`: running checksum of the payload bytes emitted so far (R23). -/
  acc : Byte
  /-- `PHASE` (R24). -/
  phase : Phase
  /-- `REP`: repetitions of the burst completed (R26). -/
  rep : Half
  /-- `CNT`: elements completed in the current phase (R27). -/
  cnt : Half
  /-- `CHIP`: index of the next chip within the current codeword (R28). -/
  chip : BitVec 2
  /-- `HAVE`: `SYM` holds a byte that has been popped and not yet fully emitted (R29). -/
  haveByte : Bool
  /-- `ECODE`: completion code the END beat of the current command will carry (R35). -/
  ecode : Byte
  /-- `ERR`: an exception has been raised since reset (R30). -/
  err : Bool
  /-- `WARN`: an invalid symbol has been skipped since reset (R31). -/
  warn : Bool
  /-- `CAUSE`: cause code of the first exception since reset (R33). -/
  cause : Byte
  /-- `EINFO`: information word of the first exception since reset (R34). -/
  einfo : Word
deriving DecidableEq, Repr

/-- One entry of the history `OUT` (R65): a beat, or the mark a reset leaves in the history (R262). -/
inductive OutRecord where
  /-- A DATA beat, `(0, v)` (R65, R99). -/
  | data (v : Byte)
  /-- An END beat, `(1, c)`, carrying a completion code (R99, R100). -/
  | done (c : Byte)
  /-- Not a beat: reset was asserted here; an open packet before it has no result (R262). -/
  | reset
deriving DecidableEq, Repr

/-- Who moves next, and how (R130): the block, the host (a command word, an input byte, reset), or the sink. -/
inductive Turn where
  /-- The block takes the step it can take, if any. -/
  | block
  /-- The host offers a command word. -/
  | command (w : Word)
  /-- The host appends a byte to `IN`. -/
  | byte (v : Byte)
  /-- The host asserts reset. -/
  | reset
  /-- The sink raises or lowers `out_ready`. -/
  | sink (ready : Bool)
deriving DecidableEq, Repr

/-- The block, the configuration it was built with, and its environment. Only `block` is the block's own state (R20,
R38, R41); the other fields are the model's (log 1), so that one deterministic step can show every order of the agents'
steps. -/
structure State where
  /-- The registers. -/
  block : Block
  /-- The constants the block was built with (R36): no step and no reset changes them (log 4). -/
  config : Config
  /-- Command words the host has offered and the block has not yet taken, oldest first (R139, R269). -/
  commands : List Word
  /-- `IN`: bytes offered and not yet taken, oldest first (R64). -/
  input : List Byte
  /-- `OUT`: what the block has produced, oldest first; it only grows (R65). -/
  output : List OutRecord
  /-- `out_ready`: the sink can take a beat. -/
  sinkReady : Bool
  /-- The turns the agents will take, next first; after the last one the block moves for ever. -/
  schedule : List Turn
deriving DecidableEq, Repr

/-- Faults: positions at which the spec's functions have no value. No state that keeps the invariants of R40 reaches
one. All three are safe: the model stops where the spec gives no element (log 7). -/
inductive Fault where
  /-- Raised by `DECOMP` in phase `DEC` when `CNT` is above 7: `bit(code, i)` is defined for i in 0..7 only (R161). -/
  | noSuchBit
  /-- Raised by `ENC` in phase `ENC` when `SYM` is above 2: the codeword memory has no such entry (R60, R70). -/
  | noSuchCodeword
  /-- Raised by `BURST` when `CNT` is at or above `REP_LEN`: `burst_chip` is defined below it only (R179). -/
  | noSuchPosition
deriving DecidableEq, Repr

/-- Refusals. The model gives every command its meaning, so none is raised. -/
inductive Refusal where
  /-- Would be raised by an arm of `exec` with no meaning yet (safe); no arm is left so. -/
  | notModelled (mnemonic : String)
deriving DecidableEq, Repr

/-- The outcome of a step. -/
abbrev Result := Host.Outcome State Fault Refusal

/-- The reset state of the registers: `PHASE = IDLE` and every other register 0 (R39, R261). -/
def Block.reset : Block where
  cmd := 0
  sym := 0
  acc := 0
  phase := .idle
  rep := 0
  cnt := 0
  chip := 0
  haveByte := false
  ecode := 0
  err := false
  warn := false
  cause := 0
  einfo := 0

/-- The machine right after reset: the registers as R39 says, this hardware's constants (R8), nothing offered, nothing
produced. DESIGN CHOICE (log 1): the sink is ready and no turn is scheduled. -/
def State.reset : State where
  block := Block.reset
  config := Config.hardware
  commands := []
  input := []
  output := []
  sinkReady := true
  schedule := []

end Sys2Proof.Machine
end

