-- ==== Sys2Proof/Machine/Operands.lean ====
section
/-! DEFINITION. The operands and elements of the commands: the bit function (41_dip_decomposer.md R161), the codeword
memory (20_memory.md R60), the symbols of `ENC` (30_encoding.md R101), the chip of a burst position (42_line_encoder.md
R179), the bytes a frame adds (43_frame_builder.md R203, R204), and the command in flight (40_command_execution.md R132). -/

namespace Sys2Proof.Machine

/-- `zext_8` of a chip or bit: the output byte 0x00 or 0x01 (R103). -/
def zext8 (b : Chip) : Byte := b.setWidth 8

/-- `bit(code, i) = (code >> (7 - i)) & 1` for i in 0..7, and nothing above (R161). -/
def bit (code : Byte) (i : Nat) : Option Chip :=
  if i ≤ 7 then some (((code >>> (7 - i)) &&& 1#8).setWidth 1) else none

/-! ### Codeword memory (R60) -/

/-- The symbols that have a codeword (R60). -/
inductive Symbol where
  | zero
  | one
  | xState
deriving DecidableEq, Repr

/-- Symbol numbers 0, 1, 2; "there is no entry 3" (R60, R70). -/
def Symbol.ofNumber : Nat → Option Symbol
  | 0 => some .zero
  | 1 => some .one
  | 2 => some .xState
  | _ => none

/-- The codeword memory, read only (R60). -/
def codeword : Symbol → Config.Codeword
  | .zero => Config.cwZero
  | .one => Config.cwOne
  | .xState => Config.cwX

/-- `CW[s][j]` (R60). -/
def cwChip (s : Symbol) (j : Fin 4) : Chip := (codeword s)[j]

/-! ### ENC -/

/-- A valid symbol: the whole byte is 0x00 or 0x01 (R101). -/
def validSymbol (v : Byte) : Bool := v == 0x00 || v == 0x01

/-- The chip `CW[SYM][CHIP]` of R173. -/
def encChip (sym : Byte) (chip : BitVec 2) : Option Chip :=
  (Symbol.ofNumber sym.toNat).map fun s => cwChip s chip.toFin

/-- The information word of `ENC_SYMBOL`: the symbol's index in bits 23:8, the byte in bits 7:0 (R107, R174). -/
def symbolInfo (index : Half) (v : Byte) : Word := index.setWidth 32 <<< 8 ||| v.setWidth 32

/-! ### BURST -/

/-- The symbol in a codeword slot of a repetition (R104, R179). -/
def burstSymbol (code : Byte) (slot : Nat) : Option Symbol :=
  if slot = 0 ∨ slot = 7 ∨ slot = 10 then some .xState
  else if 1 ≤ slot ∧ slot ≤ 6 then (bit code (slot - 1)).bind fun b => Symbol.ofNumber b.toNat
  else if slot = 8 ∨ slot = 9 then (bit code (slot - 2)).bind fun b => Symbol.ofNumber b.toNat
  else none

/-- `burst_chip(code, p)` for `0 <= p < REP_LEN`, and nothing above (R179). -/
def burstChip (c : Config) (code : Byte) (p : Nat) : Option Chip :=
  if p < c.deadAirLen then some Config.deadAirChip
  else
    (burstSymbol code ((p - c.deadAirLen) / 4)).map fun s =>
      cwChip s ⟨(p - c.deadAirLen) % 4, Nat.mod_lt _ (by decide)⟩

/-! ### FRAME -/

/-- A byte of the length header: 0x00 at even positions, `PAYLEN` at odd ones (R203). -/
def headerByte (cnt : Half) (paylen : Byte) : Byte := if cnt.toNat % 2 = 0 then 0x00 else paylen

/-- `(ACC + SYM) mod 256` (R204, R209): carries out of bit 7 are dropped. -/
def addChecksum (acc sym : Byte) : Byte := acc + sym

/-! ### The command in flight -/

/-- The command in flight: `PHASE` says which it is, `CMD` holds its operands, and `OPC` is not looked at (R21, R132).
None in `IDLE`, and none in `END`, where every command ends alike (R136). -/
def inFlight (b : Block) : Option Instr :=
  match b.phase with
  | .idle | .finish => none
  | .dec => some (.decomp (codeField b.cmd))
  | .enc | .eDrain => some (.enc (countField b.cmd))
  | .burst => some (.burst (codeField b.cmd))
  | .fLead | .fPre | .fHdr | .fPay | .fCsum | .fTrail =>
    some (.frame (prelenField b.cmd) (paylenField b.cmd) (hdrField b.cmd) (csumField b.cmd))

end Sys2Proof.Machine
end

