-- ==== Sys2Proof/Machine/Flags.lean ====
section
/-! DEFINITION. The handshake outputs (40_command_execution.md R137), the status pins (10_state.md R32), all the pins
of 20_memory.md R62 as one record, and the transfer rule (R63). -/

namespace Sys2Proof.Machine

namespace Block

/-- `cmd_ready` (R137). -/
def cmdReady (b : Block) : Bool := b.phase == .idle

/-- `in_ready` (R137). -/
def inReady (b : Block) : Bool :=
  match b.phase with
  | .enc | .eDrain | .fPre | .fPay => !b.haveByte
  | .idle | .dec | .burst | .fLead | .fHdr | .fCsum | .fTrail | .finish => false

/-- `out_valid` (R137). -/
def outValid (b : Block) : Bool :=
  match b.phase with
  | .dec | .burst | .fLead | .fHdr | .fCsum | .fTrail | .finish => true
  | .enc | .fPre | .fPay => b.haveByte
  | .idle | .eDrain => false

/-- `out_end` (R137). -/
def outEnd (b : Block) : Bool := b.phase == .finish

/-- `busy` (R32). -/
def busy (b : Block) : Bool := b.phase != .idle

/-- `out_data`: the element the phase emits (R135), or the completion code in `END` (R62, R136). None where `out_valid`
is 0, and where the phase's function has no value. -/
def outData (c : Config) (b : Block) : Option Byte :=
  match b.phase with
  | .idle | .eDrain => none
  | .dec => (bit (codeField b.cmd) b.cnt.toNat).map zext8
  | .enc => if b.haveByte then (encChip b.sym b.chip).map zext8 else none
  | .burst => (burstChip c (codeField b.cmd) b.cnt.toNat).map zext8
  | .fLead | .fTrail => some Config.silenceByte
  | .fPre | .fPay => if b.haveByte then some b.sym else none
  | .fHdr => some (headerByte b.cnt (paylenField b.cmd))
  | .fCsum => some b.acc
  | .finish => some b.ecode

end Block

/-- The pins of R62 but for `clk` and `rst`. A data pin whose side offers nothing shows no value (log 13). -/
structure Pins where
  cmdValid : Bool
  cmdReady : Bool
  cmdData : Option Word
  inValid : Bool
  inReady : Bool
  inData : Option Byte
  outValid : Bool
  outReady : Bool
  outEnd : Bool
  outData : Option Byte
  busy : Bool
  err : Bool
  warn : Bool
  cause : Byte
  einfo : Word
deriving DecidableEq, Repr

/-- What stands on the pins in a state (R32, R62, R137). -/
def pins (s : State) : Pins where
  cmdValid := !s.commands.isEmpty
  cmdReady := s.block.cmdReady
  cmdData := s.commands.head?
  inValid := !s.input.isEmpty
  inReady := s.block.inReady
  inData := s.input.head?
  outValid := s.block.outValid
  outReady := s.sinkReady
  outEnd := s.block.outEnd
  outData := s.block.outData s.config
  busy := s.block.busy
  err := s.block.err
  warn := s.block.warn
  cause := s.block.cause
  einfo := s.block.einfo

/-- A beat is transferred on the command channel (R63, with `rst = 0`). -/
def Pins.cmdTransfer (p : Pins) : Bool := p.cmdValid && p.cmdReady

/-- A beat is transferred on the input channel (R63, with `rst = 0`). -/
def Pins.inTransfer (p : Pins) : Bool := p.inValid && p.inReady

/-- A beat is transferred on the output channel (R63, with `rst = 0`). -/
def Pins.outTransfer (p : Pins) : Bool := p.outValid && p.outReady

end Sys2Proof.Machine
end

