-- ==== Sys2Proof/Machine/Ops.lean ====
section
/-! DEFINITION. The operations every command shares: register updates, `normalise()` (40_command_execution.md R133),
exception entry (60_exceptions.md R236), the four steps Accept, Pop, Emit, End (R131, R134 to R136), and the turns of
the host and the sink (R130, R260). -/

namespace Sys2Proof.Machine

/-! ### Register updates -/

namespace Block

/-- `PHASE <- p`. -/
def setPhase (p : Phase) (b : Block) : Block := { b with phase := p }

/-- `PHASE <- p ; CNT <- 0`, as `normalise()` goes from phase to phase of `FRAME` (R27, R133). -/
def enterPhase (p : Phase) (b : Block) : Block := { b with phase := p, cnt := 0 }

/-- `CNT <- CNT + 1`. -/
def countUp (b : Block) : Block := { b with cnt := b.cnt + 1 }

/-- `REP <- REP + 1 ; CNT <- 0`: one repetition is complete (R26, R133). -/
def nextRepetition (b : Block) : Block := { b with rep := b.rep + 1, cnt := 0 }

/-- `SYM <- v ; HAVE <- 1` (R202, R204). -/
def latchByte (v : Byte) (b : Block) : Block := { b with sym := v, haveByte := true }

/-- `SYM <- v ; HAVE <- 1 ; CHIP <- 0` (R172). -/
def latchSymbol (v : Byte) (b : Block) : Block := { b with sym := v, haveByte := true, chip := 0 }

/-- `HAVE <- 0 ; CNT <- CNT + 1`: the byte in `SYM` is used up (R202). -/
def releaseByte (b : Block) : Block := { b with haveByte := false, cnt := b.cnt + 1 }

/-- `ACC <- (ACC + SYM) mod 256`, then the byte is used up (R204). -/
def releasePayloadByte (b : Block) : Block :=
  { b with acc := addChecksum b.acc b.sym, haveByte := false, cnt := b.cnt + 1 }

/-- After a chip of `ENC`: the last chip of a codeword uses the symbol up, another steps `CHIP` (R173). -/
def nextChip (b : Block) : Block :=
  if b.chip = 3 then { b with chip := 0, haveByte := false, cnt := b.cnt + 1 }
  else { b with chip := b.chip + 1 }

/-- `WARN <- 1 ; CNT <- CNT + 1`: an invalid symbol is dropped (R176). -/
def skipSymbol (b : Block) : Block := { b with warn := true, cnt := b.cnt + 1 }

/-- What Accept writes before it looks at the word (R131). -/
def latchCommand (w : Word) (b : Block) : Block :=
  { b with cmd := w, rep := 0, cnt := 0, chip := 0, haveByte := false, acc := 0, ecode := 0 }

end Block

/-! ### Exceptions -/

/-- The exceptions (R230, R231). -/
inductive Cause where
  | encSymbol
  | illegalCmd
deriving DecidableEq, Repr

/-- Cause codes, which are the completion codes too (R100, R231). -/
def Cause.code : Cause → Byte
  | .encSymbol => 0x01
  | .illegalCmd => 0x02

/-- `raise E(info)` (R236): the first exception since reset is captured, and every exception marks its own command.
There is no handler and no return: the raising step sets `PHASE`, and the command ends by End like any other (R237). -/
def raiseException (e : Cause) (info : Word) (b : Block) : Block :=
  if b.err then { b with ecode := e.code }
  else { b with err := true, cause := e.code, einfo := info, ecode := e.code }

/-- An invalid symbol is refused: the exception, the symbol counts as consumed, the rest is drained (R174). -/
def rejectSymbol (v : Byte) (b : Block) : Block :=
  ((raiseException .encSymbol (symbolInfo b.cnt v) b).countUp).setPhase .eDrain

/-! ### normalise() -/

/-- One pass of the loop of `normalise()`; the identity where the loop exits (R133). -/
def advance (c : Config) (b : Block) : Block :=
  match b.phase with
  | .dec => if b.cnt.toNat = 8 then b.setPhase .finish else b
  | .enc =>
    if b.haveByte = false ∧ b.cnt.toNat = (countField b.cmd).toNat then b.setPhase .finish else b
  | .eDrain => if b.cnt.toNat = (countField b.cmd).toNat then b.setPhase .finish else b
  | .burst =>
    if b.rep.toNat = c.repeatNum then b.setPhase .finish
    else if b.cnt.toNat = c.repLen then b.nextRepetition
    else b
  | .fLead => if b.cnt.toNat = Config.silenceLen then b.enterPhase .fPre else b
  | .fPre =>
    if b.haveByte = false ∧ b.cnt.toNat = (prelenField b.cmd).toNat then b.enterPhase .fHdr else b
  | .fHdr =>
    if hdrField b.cmd = false ∨ b.cnt.toNat = Config.hdrLen then b.enterPhase .fPay else b
  | .fPay =>
    if b.haveByte = false ∧ b.cnt.toNat = (paylenField b.cmd).toNat then b.enterPhase .fCsum else b
  | .fCsum => if csumField b.cmd = false ∨ b.cnt.toNat = 1 then b.enterPhase .fTrail else b
  | .fTrail => if b.cnt.toNat = Config.silenceLen then b.setPhase .finish else b
  | .idle | .finish => b

/-- n passes of the loop. -/
def advanceTimes (c : Config) : Nat → Block → Block
  | 0, b => b
  | n + 1, b => advanceTimes c n (advance c b)

/-- `normalise()` (R133). The longest way through the loop is the five moves from `F_LEAD` to `F_TRAIL`, so six passes
reach the exit from every state (DEDUCED, log 6). -/
def normalise (c : Config) (b : Block) : Block := advanceTimes c 6 b

/-! ### Updates of the whole state -/

namespace State

/-- The registers change. -/
def setBlock (b : Block) (s : State) : State := { s with block := b }

/-- One entry is appended to `OUT` (R65). -/
def record (r : OutRecord) (s : State) : State := { s with output := s.output ++ [r] }

/-- What is left of `IN`. -/
def setInput (bytes : List Byte) (s : State) : State := { s with input := bytes }

/-- What is left of the offered commands. -/
def setCommands (words : List Word) (s : State) : State := { s with commands := words }

/-- What is left of the schedule. -/
def setSchedule (turns : List Turn) (s : State) : State := { s with schedule := turns }

/-- `out_ready`. -/
def setSink (ready : Bool) (s : State) : State := { s with sinkReady := ready }

end State

/-! ### The steps of the block -/

/-- Accept of a legal word whose command begins in phase p (R131). -/
def accept (w : Word) (p : Phase) (s : State) : Result :=
  .next (s.setBlock (normalise s.config ((s.block.latchCommand w).setPhase p)))

/-- Accept of an illegal word: `ILLEGAL_CMD` with the word, then `END` (R131, R234). -/
def acceptIllegal (w : Word) (s : State) : Result :=
  .next (s.setBlock (normalise s.config
    ((raiseException .illegalCmd w (s.block.latchCommand w)).setPhase .finish)))

/-- Pop (R134): takes the oldest byte of `IN` and does with it what the phase says; with `IN` empty the block holds
(R64, R266; log 5). -/
def pop (use : Byte → Block → Block) (s : State) : Result :=
  match s.input with
  | [] => .next s
  | v :: rest => .next ((s.setInput rest).setBlock (normalise s.config (use v s.block)))

/-- Emit (R135) of an element that may have no value; while the sink is not ready the block holds (R65;
log 5). -/
def emitOr (f : Fault) (element : Option Byte) (after : Block → Block) (s : State) : Result :=
  if s.sinkReady then
    match element with
    | some v => .next ((s.record (.data v)).setBlock (normalise s.config (after s.block)))
    | none => .fault f
  else .next s

/-- Emit (R135) of an element that always has a value. -/
def emit (v : Byte) (after : Block → Block) (s : State) : Result :=
  if s.sinkReady then .next ((s.record (.data v)).setBlock (normalise s.config (after s.block)))
  else .next s

/-- End (R136): emits the END beat with `ECODE` and changes no register but `PHASE`; holds while the sink is not
ready. -/
def endStep (s : State) : Result :=
  if s.sinkReady then .next ((s.record (.done s.block.ecode)).setBlock (s.block.setPhase .idle))
  else .next s

/-! ### The turns of the host and the sink -/

/-- Reset: every register takes its reset value, whatever the block was doing; no beat is transferred, what the host
has offered stays with it, and the history records the reset (R260 to R262; log 3). -/
def resetStep (s : State) : State := (s.record .reset).setBlock Block.reset

/-- The next turn, and the state once it is taken off the schedule. DESIGN CHOICE (log 1): when the schedule is empty
it is the block's turn. -/
def nextTurn (s : State) : Turn × State :=
  match s.schedule with
  | [] => (.block, s)
  | t :: rest => (t, s.setSchedule rest)

/-- A step of the host or the sink (R130). The block's own turn changes nothing here. -/
def environmentStep (t : Turn) (s : State) : State :=
  match t with
  | .block => s
  | .command w => s.setCommands (s.commands ++ [w])
  | .byte v => s.setInput (s.input ++ [v])
  | .reset => resetStep s
  | .sink ready => s.setSink ready

/-- The oldest command word the host has offered, and the state once it is taken (R74, R131). -/
def takeCommand (s : State) : Option (Word × State) :=
  match s.commands with
  | [] => none
  | w :: rest => some (w, s.setCommands rest)

end Sys2Proof.Machine
end

