-- ==== Sys2Proof/Machine/Decomposer.lean ====
section
/-! DEFINITION. The Dip-Switch Decomposer: the command `DECOMP` (41_dip_decomposer.md R160). -/

namespace Sys2Proof.Machine

/-- `DECOMP code` (R160), the block's next step of the command. In `IDLE`: Accept. In `DEC`: emit bit `CNT` of
`CMD.CODE`, most significant first. In `END`: End. While another command is in flight the word waits (R139). -/
def execDecomp (code : Byte) (s : State) : Result :=
  match s.block.phase with
  | .idle => accept (encode (.decomp code)) .dec s
  | .dec =>
    emitOr .noSuchBit ((bit (codeField s.block.cmd) s.block.cnt.toNat).map zext8) Block.countUp s
  | .finish => endStep s
  | .enc | .eDrain | .burst | .fLead | .fPre | .fHdr | .fPay | .fCsum | .fTrail => .next s

end Sys2Proof.Machine
end

