-- ==== Sys2Proof/Machine/FrameBuilder.lean ====
section
/-! DEFINITION. The Frame Builder: the command `FRAME` (43_frame_builder.md R200 to R213). -/

namespace Sys2Proof.Machine

/-- `FRAME prelen, paylen, hdr, csum` (R200), the block's next step of the command. In `IDLE`: Accept. Then the six
phases in construction order: leading silence (R201), preamble bytes verbatim (R202), the length header (R203), payload
bytes verbatim, summed into `ACC` (R204), the checksum (R205), trailing silence (R206); `normalise()` passes the parts
that are absent. In `END`: End. While another command is in flight the word waits (R139). -/
def execFrame (prelen paylen : Byte) (hdr csum : Bool) (s : State) : Result :=
  match s.block.phase with
  | .idle => accept (encode (.frame prelen paylen hdr csum)) .fLead s
  | .fLead => emit Config.silenceByte Block.countUp s
  | .fPre =>
    if s.block.haveByte then emit s.block.sym Block.releaseByte s else pop Block.latchByte s
  | .fHdr => emit (headerByte s.block.cnt (paylenField s.block.cmd)) Block.countUp s
  | .fPay =>
    if s.block.haveByte then emit s.block.sym Block.releasePayloadByte s else pop Block.latchByte s
  | .fCsum => emit s.block.acc Block.countUp s
  | .fTrail => emit Config.silenceByte Block.countUp s
  | .finish => endStep s
  | .dec | .enc | .eDrain | .burst => .next s

end Sys2Proof.Machine
end

