-- ==== Sys2Proof/Machine/LineEncoder.lean ====
section
/-! DEFINITION. The Line Encoder: the commands `ENC` (42_line_encoder.md R171 to R177) and `BURST` (R178 to R182). -/

namespace Sys2Proof.Machine

/-- What a Pop of phase `ENC` does with its byte: a valid symbol is latched (R172); an invalid one raises `ENC_SYMBOL`
(R174), or is skipped with a warning where the block is built so (R176). -/
def takeSymbol (c : Config) (v : Byte) (b : Block) : Block :=
  if validSymbol v then b.latchSymbol v
  else if c.skipBadSymbol then b.skipSymbol
  else rejectSymbol v b

/-- `ENC count` (R171), the block's next step of the command. In `IDLE`: Accept. In `ENC`: pop a symbol when none is
held (R172, R174, R176), else emit its next chip (R173). In `E_DRAIN`: discard a symbol still owed (R175); no step is
possible there with `HAVE = 1`, which no rule brings about (R137, log 9). In `END`: End. While another command is in flight
the word waits (R139). -/
def execEnc (count : Half) (s : State) : Result :=
  match s.block.phase with
  | .idle => accept (encode (.enc count)) .enc s
  | .enc =>
    if s.block.haveByte then
      emitOr .noSuchCodeword ((encChip s.block.sym s.block.chip).map zext8) Block.nextChip s
    else pop (takeSymbol s.config) s
  | .eDrain => if s.block.haveByte then .next s else pop (fun _ => Block.countUp) s
  | .finish => endStep s
  | .dec | .burst | .fLead | .fPre | .fHdr | .fPay | .fCsum | .fTrail => .next s

/-- `BURST code` (R178), the block's next step of the command. In `IDLE`: Accept. In `BURST`: emit the chip at position
`CNT` of the current repetition (R179, R180). In `END`: End. While another command is in flight the word waits (R139). -/
def execBurst (code : Byte) (s : State) : Result :=
  match s.block.phase with
  | .idle => accept (encode (.burst code)) .burst s
  | .burst =>
    emitOr .noSuchPosition
      ((burstChip s.config (codeField s.block.cmd) s.block.cnt.toNat).map zext8) Block.countUp s
  | .finish => endStep s
  | .dec | .enc | .eDrain | .fLead | .fPre | .fHdr | .fPay | .fCsum | .fTrail => .next s

end Sys2Proof.Machine
end

