-- ==== Sys2Proof/Machine/Dispatch.lean ====
section
/-! DEFINITION. One arm per command: its meaning is the block's next step of that command
(40_command_execution.md R131 to R136, at the level of beats, 00_scope.md R15; log 8). -/

namespace Sys2Proof.Machine

def exec (i : Instr) (s : State) : Host.Outcome State Fault Refusal :=
  match i with
  | .decomp code => Sys2Proof.Machine.execDecomp code s
  | .enc count => Sys2Proof.Machine.execEnc count s
  | .burst code => Sys2Proof.Machine.execBurst code s
  | .frame prelen paylen hdr csum => Sys2Proof.Machine.execFrame prelen paylen hdr csum s

end Sys2Proof.Machine
end

