-- ==== Sys2Proof/Machine/Step.lean ====
section
/-! DEFINITION. One step of the machine: one turn of the block, the host or the sink (40_command_execution.md R130). -/

namespace Sys2Proof.Machine

/-- The block's turn: exactly one kind of step is possible (R137). With a command in flight, its next step; in `IDLE`,
Accept of the oldest offered word, legal or not, or a wait when none is offered; in `END`, End. -/
def blockStep (s : State) : Result :=
  match inFlight s.block with
  | some i => exec i s
  | none =>
    if s.block.phase = .idle then
      match takeCommand s with
      | none => .next s
      | some (w, s') =>
        match decode w with
        | .ok i => exec i s'
        | .error _ => acceptIllegal w s'
    else endStep s

/-- One step: the next agent of the schedule moves. -/
def step (s : State) : Host.Outcome State Fault Refusal :=
  match nextTurn s with
  | (.block, s') => blockStep s'
  | (t, s') => .next (environmentStep t s')

/-- The host has offered the word first, the block is idle and it is its turn: so the very next step accepts the word
(log 2). Nothing else changes. -/
def State.withFetchWord (s : State) (nbits w : Nat) : State :=
  { s with
    block := s.block.setPhase .idle
    commands := BitVec.ofNat 32 (w % 2 ^ nbits) :: s.commands
    schedule := .block :: s.schedule }

end Sys2Proof.Machine
end

