-- ==== Sys2Proof/Machine/Assembler.lean ====
section
/-! DEFINITION. Test programs (30_encoding.md R108 to R110): reading a line of text, and the host turns a program stands
for (log 11, log 12). -/

namespace Sys2Proof.Machine.Assembler

/-! ### Reading a line -/

/-- Blank characters. -/
def isBlank (ch : Char) : Bool := ch == ' ' || ch == '\t'

/-- Without the blanks at both ends. -/
def trim (cs : List Char) : List Char := ((cs.dropWhile isBlank).reverse.dropWhile isBlank).reverse

/-- The pieces between commas. -/
def splitCommas : List Char → List (List Char)
  | [] => [[]]
  | ch :: rest =>
    match splitCommas rest with
    | [] => [[ch]]
    | piece :: more => if ch == ',' then [] :: piece :: more else (ch :: piece) :: more

/-- The value of a digit in base ten or sixteen. -/
def digit (base : Nat) (ch : Char) : Option Nat :=
  let n := ch.toNat
  let value :=
    if 48 ≤ n ∧ n ≤ 57 then some (n - 48)
    else if 97 ≤ n ∧ n ≤ 102 then some (n - 87)
    else if 65 ≤ n ∧ n ≤ 70 then some (n - 55)
    else none
  value.filter fun v => decide (v < base)

/-- The number a run of digits stands for, given the value of the digits before it. -/
def digits (base : Nat) (acc : Nat) : List Char → Option Nat
  | [] => some acc
  | ch :: rest => (digit base ch).bind fun d => digits base (acc * base + d) rest

/-- An operand: "unsigned numbers in decimal or, with the prefix `0x`, hexadecimal" (R108). -/
def number : List Char → Option Nat
  | '0' :: 'x' :: ch :: rest => digits 16 0 (ch :: rest)
  | '0' :: 'x' :: [] => none
  | [] => none
  | cs => digits 10 0 cs

/-- The operands of a line: none when nothing stands there. -/
def operands (cs : List Char) : Option (List Nat) :=
  if cs.isEmpty then some [] else (splitCommas cs).mapM fun piece => number (trim piece)

/-- The line a mnemonic and its operands stand for (R108 to R110). -/
def lineOf (name : List Char) (args : List Nat) : Option AsmLine :=
  match name, args with
  | ['D', 'E', 'C', 'O', 'M', 'P'], [code] => some (.command (.decomp code))
  | ['E', 'N', 'C'], [count] => some (.command (.enc count))
  | ['B', 'U', 'R', 'S', 'T'], [code] => some (.command (.burst code))
  | ['F', 'R', 'A', 'M', 'E'], [p, n, h, k] => some (.command (.frame p n h k))
  | ['F', 'R', 'A', 'M', 'E', '.', 'R', 'A', 'W'], [p, n] => some (.command (.frameRaw p n))
  | ['F', 'R', 'A', 'M', 'E', '.', 'L'], [p, n] => some (.command (.frameL p n))
  | ['F', 'R', 'A', 'M', 'E', '.', 'C'], [p, n] => some (.command (.frameC p n))
  | ['F', 'R', 'A', 'M', 'E', '.', 'L', 'C'], [p, n] => some (.command (.frameLC p n))
  | ['.', 'w', 'o', 'r', 'd'], [w] => some (.command (.word w))
  | ['.', 'i', 'n'], b :: bytes => some (.input (b :: bytes))
  | ['.', 'r', 'e', 's', 'e', 't'], [] => some .reset
  | _, _ => none

/-- One line of text: `;` starts a comment, a blank line stands for nothing (the outer `some`, the inner `none`), and
what is no line of the syntax is refused (`none`) (R108). -/
def readLine (text : List Char) : Option (Option AsmLine) :=
  let code := trim (text.takeWhile (· != ';'))
  if code.isEmpty then some none
  else
    let name := code.takeWhile fun ch => !isBlank ch
    let rest := trim (code.dropWhile fun ch => !isBlank ch)
    (operands rest).bind fun args => (lineOf name args).map some

/-! ### What a program does -/

/-- The host turns of a line: a command word offered, bytes offered in order, or reset asserted once (R110). None when
the assembler refuses the line (R108). -/
def turns (line : AsmLine) : Option (List Turn) :=
  if line.fits then
    match line with
    | .command c => (assemble c).map fun w => [.command w]
    | .input bytes => some (bytes.map fun b => .byte (BitVec.ofNat 8 b))
    | .reset => some [.reset]
  else none

/-- The host turns of a program, line after line; none when a line is refused. -/
def program : List AsmLine → Option (List Turn)
  | [] => some []
  | line :: rest => (turns line).bind fun ts => (program rest).map fun more => ts ++ more

end Sys2Proof.Machine.Assembler
end

