-- ==== Sys2Proof/Machine/Reference.lean ====
section
/-! DEFINITION. The four reference functions of 00_scope.md R13, "what a model's claims are stated against", and how a
history is read as packets and results (40_command_execution.md R141, 70_reset_and_hazards.md R262). They use nothing of
the sequencer. -/

namespace Sys2Proof.Machine.Reference

/-- `bit(code, i) = (code >> (7 - i)) & 1` on numbers (R13). -/
def bit (code : Nat) (i : Nat) : Chip := BitVec.ofNat 1 ((code >>> (7 - i)) &&& 1)

/-- `decompose(code) = [bit(code,0), bit(code,1), ..., bit(code,7)]`. -/
def decompose (code : Byte) : List Chip := (List.range 8).map (bit code.toNat)

/-- `cw(0) = CW_ZERO ; cw(1) = CW_ONE`. -/
def cw (b : Chip) : List Chip := if b = 0 then Config.cwZero.toList else Config.cwOne.toList

/-- `encode_bits(bits) = cw(bits[0]) ++ cw(bits[1]) ++ ...`. -/
def encodeBits (bits : List Chip) : List Chip := bits.flatMap cw

/-- `DEAD_AIR = rep(DEAD_AIR_LEN, [DEAD_AIR_CHIP])`. -/
def deadAir (c : Config) : List Chip := List.replicate c.deadAirLen Config.deadAirChip

/-- `repetition(code)`: dead air, X, bits 0 to 5, X, bits 6 and 7, X. -/
def repetition (c : Config) (code : Byte) : List Chip :=
  deadAir c ++ Config.cwX.toList ++ encodeBits ((decompose code).take 6) ++ Config.cwX.toList
    ++ encodeBits ((decompose code).drop 6) ++ Config.cwX.toList

/-- `build_payload(code) = rep(REPEAT_NUM, repetition(code))`. -/
def buildPayload (c : Config) (code : Byte) : List Chip :=
  (List.replicate c.repeatNum (repetition c code)).flatten

/-- `zeros(10)`. -/
def silence : List Byte := List.replicate Config.silenceLen Config.silenceByte

/-- `sum(pay) mod 256`: the full sum of the bytes as numbers, reduced once (R209). -/
def checksum (pay : List Byte) : Byte := BitVec.ofNat 8 ((pay.map BitVec.toNat).sum % 256)

/-- `build_frame(pre, pay, hdr, cs)`, for a payload of at most 255 bytes. -/
def buildFrame (pre pay : List Byte) (hdr cs : Bool) : List Byte :=
  silence ++ pre
    ++ (if hdr then [0x00, BitVec.ofNat 8 pay.length, 0x00, BitVec.ofNat 8 pay.length] else [])
    ++ pay ++ (if cs then [checksum pay] else []) ++ silence

/-- The logical bit of a valid symbol (R101). -/
def symbolBit (v : Byte) : Chip := v.setWidth 1

/-- Chips or bits as DATA beats, one byte 0x00 or 0x01 each (R103). -/
def chipBeats (chips : List Chip) : List OutRecord := chips.map fun b => .data (b.setWidth 8)

/-- Bytes as DATA beats. -/
def byteBeats (bytes : List Byte) : List OutRecord := bytes.map .data

/-! ### Packets and results (R141) -/

/-- The packet of a command: the values of its DATA beats and the code of its END beat. -/
structure Packet where
  data : List Byte
  code : Byte
deriving DecidableEq, Repr

/-- The packets of a history, given the DATA values of the packet it begins inside. A reset voids an open packet, which
"is given no result" (R262, 93_implementation_defined.md U12). -/
def packetsFrom (opened : List Byte) : List OutRecord → List Packet
  | [] => []
  | .data v :: rest => packetsFrom (opened ++ [v]) rest
  | .done c :: rest => { data := opened, code := c } :: packetsFrom [] rest
  | .reset :: rest => packetsFrom [] rest

/-- The packets of a history that begins between commands. -/
def packets (out : List OutRecord) : List Packet := packetsFrom [] out

/-- `Ok(data)` when the code is 0x00, `Err(code)` otherwise: the data of a failed command are discarded (R100, R141,
R268). -/
def Packet.result (p : Packet) : Except Byte (List Byte) :=
  if p.code = 0x00 then .ok p.data else .error p.code

end Sys2Proof.Machine.Reference
end

