-- ==== Sys2Proof/Safety.lean ====
section
/-! DEFINITION. What a sound state is (10_state.md R40), in the terms the claims use, and the quantities the claims
compare runs by. -/

namespace Sys2Proof.Machine

/-- The count at which a phase is complete (R27); none where `CNT` is not used. -/
def limit (c : Config) (b : Block) : Option Nat :=
  match b.phase with
  | .idle | .finish => none
  | .dec => some 8
  | .enc | .eDrain => some (countField b.cmd).toNat
  | .burst => some c.repLen
  | .fLead | .fTrail => some Config.silenceLen
  | .fPre => some (prelenField b.cmd).toNat
  | .fHdr => some (if hdrField b.cmd then Config.hdrLen else 0)
  | .fPay => some (paylenField b.cmd).toNat
  | .fCsum => some (if csumField b.cmd then 1 else 0)

namespace Block

/-- R40 (a): `HAVE = 1` only in phases `ENC`, `F_PRE`, `F_PAY`. -/
abbrev HavePhase (b : Block) : Prop :=
  b.haveByte = true → b.phase = .enc ∨ b.phase = .fPre ∨ b.phase = .fPay

/-- R40 (b): in a phase with a limit, `CNT` is below it; in `BURST` also `REP < REPEAT_NUM`. -/
abbrev BelowLimit (c : Config) (b : Block) : Prop :=
  (∀ n ∈ limit c b, b.cnt.toNat < n) ∧
    (b.phase = .burst → b.rep.toNat < c.repeatNum)

/-- R40 (c): in `ENC`, a held symbol is 0 or 1, and with none held `CHIP = 0`. -/
abbrev SymbolLatch (b : Block) : Prop :=
  b.phase = .enc →
    (b.haveByte = true → b.sym = 0 ∨ b.sym = 1) ∧ (b.haveByte = false → b.chip = 0)

/-- R40 (d): `ECODE != 0` only in phases `E_DRAIN`, `END` and `IDLE`. -/
abbrev EcodePhase (b : Block) : Prop :=
  b.ecode ≠ 0 → b.phase = .eDrain ∨ b.phase = .finish ∨ b.phase = .idle

/-- R40 (e): `ERR = 0` implies `CAUSE = 0` and `EINFO = 0`; `ERR = 1` implies `CAUSE` is 1 or 2. -/
abbrev FirstCapture (b : Block) : Prop :=
  (b.err = false → b.cause = 0 ∧ b.einfo = 0) ∧ (b.err = true → b.cause = 1 ∨ b.cause = 2)

/-- R100, R35: a completion code is 0x00, 0x01 or 0x02, and one that is not 0x00 marks an exception. -/
abbrev CodeKnown (b : Block) : Prop :=
  (b.ecode = 0 ∨ b.ecode = 1 ∨ b.ecode = 2) ∧ (b.ecode ≠ 0 → b.err = true)

/-- R31: `WARN` is set only where the block skips invalid symbols. -/
abbrev WarnConfigured (c : Config) (b : Block) : Prop := b.warn = true → c.skipBadSymbol = true

/-- R21, R132: while a command is in flight, `CMD` is that command's word. -/
abbrev CommandLatched (b : Block) : Prop :=
  ∀ i ∈ inFlight b, encode i = b.cmd

/-- What holds of the registers after every step (R40, with R21, R31, R100, R132). -/
abbrev Sound (c : Config) (b : Block) : Prop :=
  b.HavePhase ∧ b.BelowLimit c ∧ b.SymbolLatch ∧ b.EcodePhase ∧ b.FirstCapture ∧ b.CodeKnown ∧
    b.WarnConfigured c ∧ b.CommandLatched

end Block

/-- A sound state: admissible constants (R9) and sound registers (R40). -/
abbrev State.Sound (s : State) : Prop := s.config.Admissible ∧ s.block.Sound s.config

/-- The block moves next. -/
abbrev State.BlockMoves (s : State) : Prop := (nextTurn s).1 = .block

/-- No turn of the schedule asserts reset. -/
abbrev State.NoReset (s : State) : Prop := Turn.reset ∉ s.schedule

/-- The command word a turn offers. -/
def Turn.offeredWord : Turn → Option Word
  | .command w => some w
  | .block | .byte _ | .reset | .sink _ => none

/-- The input byte a turn offers. -/
def Turn.offeredByte : Turn → Option Byte
  | .byte v => some v
  | .block | .command _ | .reset | .sink _ => none

/-- Every command word the host offers from here on, oldest first. -/
def State.allCommands (s : State) : List Word :=
  s.commands ++ s.schedule.filterMap Turn.offeredWord

/-- Every input byte the host offers from here on, oldest first. -/
def State.allInput (s : State) : List Byte :=
  s.input ++ s.schedule.filterMap Turn.offeredByte

/-- `need(k)`: the input bytes a command consumes (R72 (c), R264). -/
def need : Instr → Nat
  | .decomp _ => 0
  | .enc count => count.toNat
  | .burst _ => 0
  | .frame prelen paylen _ _ => prelen.toNat + paylen.toNat

/-- The phases a step of the block may rest in after one in the given phase (R140): the fixed order, with phases of
length zero passed through; `E_DRAIN` is entered only where the block does not skip invalid symbols. -/
def mayFollow (c : Config) : Phase → List Phase
  | .idle => [.idle, .dec, .enc, .burst, .fLead, .finish]
  | .dec => [.dec, .finish]
  | .enc => if c.skipBadSymbol then [.enc, .finish] else [.enc, .eDrain, .finish]
  | .eDrain => [.eDrain, .finish]
  | .burst => [.burst, .finish]
  | .fLead => [.fLead, .fPre, .fHdr, .fPay, .fCsum, .fTrail]
  | .fPre => [.fPre, .fHdr, .fPay, .fCsum, .fTrail]
  | .fHdr => [.fHdr, .fPay, .fCsum, .fTrail]
  | .fPay => [.fPay, .fCsum, .fTrail]
  | .fCsum => [.fCsum, .fTrail]
  | .fTrail => [.fTrail, .finish]
  | .finish => [.finish, .idle]

/-- The phase a `FRAME` rests in once its leading silence is out: the first part that is not empty (R140, R201). -/
def afterSilence (prelen paylen : Byte) (hdr csum : Bool) : Phase :=
  if prelen ≠ 0 then .fPre
  else if hdr then .fHdr
  else if paylen ≠ 0 then .fPay
  else if csum then .fCsum
  else .fTrail

/-- The phase a `FRAME` rests in once its preamble is out (R202). -/
def afterPreamble (paylen : Byte) (hdr csum : Bool) : Phase :=
  if hdr then .fHdr else if paylen ≠ 0 then .fPay else if csum then .fCsum else .fTrail

/-- The phase a `FRAME` rests in once its length header is out (R203). -/
def afterHeader (paylen : Byte) (csum : Bool) : Phase :=
  if paylen ≠ 0 then .fPay else if csum then .fCsum else .fTrail

/-- The phase a `FRAME` rests in once its payload is out (R204). -/
def afterPayload (csum : Bool) : Phase := if csum then .fCsum else .fTrail

end Sys2Proof.Machine
end

