-- ==== Sys2Proof/Certificates/Slice0/Obligations.lean ====
section
/-! DEFINITION. The statements for the provers. Each docstring names the rule of the spec it formalises.

The spec leaves the order of the agents' turns open (40_command_execution.md R130); the field `schedule` and the rule
that with nothing scheduled the block moves are the model's own form of that (log 1). `s.BlockMoves` and
`s.schedule = []` say no more than whose turn it is, and `schedule := s.schedule.tail` that the turn is used up. -/

open Sys2Proof Sys2Proof.Machine

/-! ### Encoding (30_encoding.md) -/

/-- R92 to R96: decoding the word of a command gives the command back, with every operand at every value. -/
def Obligations.DecodeOfEncodeIsTheCommand : Prop :=
  ∀ i : Instr, decode (encode i) = .ok i

/-- R90 to R96: a word that decodes is the word of the command it decodes to: no bit of it is dropped. -/
def Obligations.EncodeOfDecodedIsTheWord : Prop :=
  ∀ (w : Word) (i : Instr), decode w = .ok i → encode i = w

/-- R97: the legality predicate: its four rows, of which at most one matches; every value of every field is legal; and
the decoder accepts exactly the legal words. -/
def Obligations.LegalWordsAreTheFourRows : Prop :=
  (∀ w : Word, legal w = true ↔
    ((w &&& 0xFFFFFF00#32 = 0x10000000#32 ∨ w &&& 0xFFFF0000#32 = 0x20000000#32) ∨
      (w &&& 0xFFFFFF00#32 = 0x30000000#32 ∨ w &&& 0xFFFC0000#32 = 0x40000000#32))) ∧
  (∀ w : Word, List.countP (fun row => w &&& row.1 == row.2)
    [(0xFFFFFF00#32, 0x10000000#32), (0xFFFF0000#32, 0x20000000#32), (0xFFFFFF00#32, 0x30000000#32),
      (0xFFFC0000#32, 0x40000000#32)] ≤ 1) ∧
  (∀ i : Instr, legal (encode i) = true) ∧
  (∀ w : Word, (∃ i, decode w = .ok i) ↔ legal w = true)

/-- R98, its first sentence: which words are illegal, by opcode and reserved bits. -/
def Obligations.IllegalWordsByOpcodeOrReservedBit : Prop :=
  (∀ w : Word, legal w = false ↔
    (w.toNat / 2 ^ 28 = 0 ∨ 5 ≤ w.toNat / 2 ^ 28) ∨
    ((w.toNat / 2 ^ 28 = 1 ∨ w.toNat / 2 ^ 28 = 3) ∧ w.toNat / 2 ^ 8 % 2 ^ 20 ≠ 0) ∨
    (w.toNat / 2 ^ 28 = 2 ∧ w.toNat / 2 ^ 16 % 2 ^ 12 ≠ 0) ∨
    (w.toNat / 2 ^ 28 = 4 ∧ w.toNat / 2 ^ 18 % 2 ^ 10 ≠ 0)) ∧
  legal 0 = false

/-- 95_test_vectors.md 2.1: words written out there decode as their row says. -/
def Obligations.SpecWordsDecode : Prop :=
  decode 0x100000A5#32 = .ok (.decomp 0xA5) ∧
  decode 0x20000002#32 = .ok (.enc 2) ∧
  decode 0x2000FFFF#32 = .ok (.enc 0xFFFF) ∧
  decode 0x300000FF#32 = .ok (.burst 0xFF) ∧
  decode 0x40030203#32 = .ok (.frame 2 3 true true) ∧
  decode 0x400200FF#32 = .ok (.frame 0 255 false true) ∧
  decode 0x00000000#32 = .error (.unknownOpcode 0) ∧
  decode 0x50000000#32 = .error (.unknownOpcode 5) ∧
  decode 0x30000100#32 = .error (.reservedBitSet 3) ∧
  decode 0x20010000#32 = .error (.reservedBitSet 2) ∧
  decode 0x40040000#32 = .error (.reservedBitSet 4) ∧
  decode 0x18000000#32 = .error (.reservedBitSet 1)

/-- R108: a line is assembled exactly when its operands fit, to the word the rule's formula gives: nothing is
truncated. -/
def Obligations.AssembledWordIsTheFormula : Prop :=
  (∀ c : AsmCommand, (assemble c).isSome = c.fits) ∧
  (∀ code : Nat, code ≤ 255 → (assemble (.decomp code)).map BitVec.toNat = some (0x10000000 + code)) ∧
  (∀ count : Nat, count ≤ 65535 → (assemble (.enc count)).map BitVec.toNat = some (0x20000000 + count)) ∧
  (∀ code : Nat, code ≤ 255 → (assemble (.burst code)).map BitVec.toNat = some (0x30000000 + code)) ∧
  (∀ p n h k : Nat, p ≤ 255 → n ≤ 255 → h ≤ 1 → k ≤ 1 →
    (assemble (.frame p n h k)).map BitVec.toNat =
      some (0x40000000 + k * 2 ^ 17 + h * 2 ^ 16 + p * 2 ^ 8 + n))

/-- R109: each pseudo-command is one word, that of its `FRAME`, and `.word` gives the word as it stands. -/
def Obligations.PseudoCommandsExpandToFrame : Prop :=
  ∀ p n : Nat,
    assemble (.frameRaw p n) = assemble (.frame p n 0 0) ∧
    assemble (.frameL p n) = assemble (.frame p n 1 0) ∧
    assemble (.frameC p n) = assemble (.frame p n 0 1) ∧
    assemble (.frameLC p n) = assemble (.frame p n 1 1) ∧
    (∀ w : Word, assemble (.word w.toNat) = some w)

/-! ### Codeword memory and reference functions (20_memory.md, 00_scope.md) -/

/-- R60, R170: the table of codewords, read chip by chip; every codeword begins with a 0 and ends with a 1. -/
def Obligations.CodewordMemoryIsTheTable : Prop :=
  (List.finRange 4).map (cwChip .zero) = [0, 1, 1, 1] ∧
  (List.finRange 4).map (cwChip .one) = [0, 0, 1, 1] ∧
  (List.finRange 4).map (cwChip .xState) = [0, 0, 0, 1] ∧
  (∀ s : Symbol, cwChip s 0 = 0 ∧ cwChip s 3 = 1) ∧
  Symbol.ofNumber 3 = none

/-- R179 against R104: the chip the block computes for a position is the chip of the repetition the reference function
builds, and there is none beyond it. -/
def Obligations.BurstChipIsTheRepetition : Prop :=
  ∀ (c : Config) (code : Byte) (p : Nat), burstChip c code p = (Reference.repetition c code)[p]?

/-- R181: the length of a burst, the same for every code. -/
def Obligations.BurstLengthIsFixed : Prop :=
  ∀ (c : Config) (code : Byte),
    (Reference.buildPayload c code).length = c.repeatNum * (c.deadAirLen + 32 + 12)

/-- R208: the length of a frame, for payloads and preambles the command can state. -/
def Obligations.FrameLengthIsFixed : Prop :=
  ∀ (pre pay : List Byte) (hdr cs : Bool), pre.length ≤ 255 → pay.length ≤ 255 →
    (Reference.buildFrame pre pay hdr cs).length =
      20 + pre.length + 4 * hdr.toNat + pay.length + cs.toNat ∧
    20 ≤ (Reference.buildFrame pre pay hdr cs).length ∧
    (Reference.buildFrame pre pay hdr cs).length ≤ 535

/-- R141, R100, R262: a history is read as packets, each closed by its END beat: with code 0x00 the result is its data,
with any other code its data are discarded; a packet that a reset leaves open has no result. -/
def Obligations.HistoriesSplitIntoPackets : Prop :=
  ∀ (data : List Byte) (code : Byte) (rest : List OutRecord),
    Reference.packets (Reference.byteBeats data ++ .done code :: rest) =
      { data := data, code := code } :: Reference.packets rest ∧
    Reference.packets (Reference.byteBeats data ++ .reset :: rest) = Reference.packets rest ∧
    Reference.packets (Reference.byteBeats data) = [] ∧
    (code = 0x00 → Reference.Packet.result { data := data, code := code } = .ok data) ∧
    (code ≠ 0x00 → Reference.Packet.result { data := data, code := code } = .error code)

/-! ### Reset and the turns of the host and the sink (70_reset_and_hazards.md, 40_command_execution.md) -/

/-- R39: every register and every pin right after reset. -/
def Obligations.ResetRegistersAndPins : Prop :=
  State.reset.block =
    { cmd := 0, sym := 0, acc := 0, phase := .idle, rep := 0, cnt := 0, chip := 0, haveByte := false,
      ecode := 0, err := false, warn := false, cause := 0, einfo := 0 } ∧
  (pins State.reset).busy = false ∧ (pins State.reset).err = false ∧ (pins State.reset).warn = false ∧
  (pins State.reset).cause = 0x00 ∧ (pins State.reset).einfo = 0x00000000 ∧
  (pins State.reset).cmdReady = true ∧ (pins State.reset).inReady = false ∧ (pins State.reset).outValid = false

/-- R260, R261, R262: reset, from any state: every register at its reset value, no beat transferred, what the host has
offered left with it, the configuration unaffected, and the reset recorded in the history (the record is the model's
form of R262's last sentence, log 3). -/
def Obligations.ResetFromAnyState : Prop :=
  ∀ (s : State) (rest : List Turn), s.schedule = .reset :: rest →
    step s = .next
      { s with
        block :=
          { cmd := 0, sym := 0, acc := 0, phase := .idle, rep := 0, cnt := 0, chip := 0, haveByte := false,
            ecode := 0, err := false, warn := false, cause := 0, einfo := 0 }
        output := s.output ++ [.reset]
        schedule := rest }

/-- R130, R64: what a host's offer and a sink's change of readiness do, and that they touch no register. -/
def Obligations.HostAndSinkTurns : Prop :=
  ∀ (s : State) (rest : List Turn),
    (∀ w, s.schedule = .command w :: rest →
      step s = .next { s with commands := s.commands ++ [w], schedule := rest }) ∧
    (∀ v, s.schedule = .byte v :: rest →
      step s = .next { s with input := s.input ++ [v], schedule := rest }) ∧
    (∀ r, s.schedule = .sink r :: rest → step s = .next { s with sinkReady := r, schedule := rest })

/-! ### A step runs the decoded command -/

/-- R131, R74: in `IDLE`, when the oldest offered word decodes, the block's step is that command's, the word taken off
the command channel and the turn off the schedule. -/
def Obligations.StepRunsDecodedCommand : Prop :=
  ∀ (s : State) (w : Word) (rest : List Word) (i : Instr),
    s.BlockMoves → s.block.phase = .idle → s.commands = w :: rest → decode w = .ok i →
    step s = exec i { s with commands := rest, schedule := s.schedule.tail }

/-- R132: with a command in flight, the block's step is that command's, whatever the host offers. -/
def Obligations.StepRunsCommandInFlight : Prop :=
  ∀ (s : State) (i : Instr), s.BlockMoves → inFlight s.block = some i →
    step s = exec i { s with schedule := s.schedule.tail }

/-- The host's fetch: a word placed first on the command channel is run by the very next step (log 2). -/
def Obligations.FetchedWordRunsNext : Prop :=
  ∀ (s : State) (w : Word) (i : Instr), decode w = .ok i →
    decodeTableWord 32 w.toNat = some i ∧
    step (s.withFetchWord 32 w.toNat) = exec i { s with block := { s.block with phase := .idle } }

/-- R136: End emits the END beat with `ECODE`, goes to `IDLE`, and changes nothing else. -/
def Obligations.EndEmitsCompletionCode : Prop :=
  ∀ s : State, s.BlockMoves → s.block.phase = .finish → s.sinkReady = true →
    step s = .next
      { s with
        block := { s.block with phase := .idle }
        output := s.output ++ [.done s.block.ecode]
        schedule := s.schedule.tail }

/-- R65, R266, R139, R269: with no command offered in `IDLE`, no input byte where one is due, or no ready sink where a
beat is due, the block holds: nothing but the turn is used up. That a hold is a next state, a wait in `IDLE` with no
word offered included, is the model's reading of those rules (log 5, DEDUCED). -/
def Obligations.BlockHoldsWhileItWaits : Prop :=
  ∀ s : State, s.BlockMoves →
    ((s.block.cmdReady = true ∧ s.commands = []) ∨ (s.block.inReady = true ∧ s.input = []) ∨
      (s.block.outValid = true ∧ s.sinkReady = false)) →
    step s = .next { s with schedule := s.schedule.tail }

/-- R131, R98, R234, R236: Accept of an illegal word: the word is taken, `ILLEGAL_CMD` is raised with it, the block goes
to `END`; no input is consumed and no beat emitted; `SYM` and `WARN` are not written. -/
def Obligations.IllegalWordRaisesIllegalCmd : Prop :=
  ∀ (s : State) (w : Word) (rest : List Word),
    s.BlockMoves → s.block.phase = .idle → s.commands = w :: rest → legal w = false →
    step s = .next
      { s with
        commands := rest
        schedule := s.schedule.tail
        block :=
          { s.block with
            cmd := w, rep := 0, cnt := 0, chip := 0, haveByte := false, acc := 0
            phase := .finish
            ecode := 0x02
            err := true
            cause := if s.block.err then s.block.cause else 0x02
            einfo := if s.block.err then s.block.einfo else w } }

/-! ### Accept of a legal command -/

/-- R131, R140: Accept of each command: `CMD` latched, the counters, `CHIP`, `HAVE`, `ACC` and `ECODE` cleared, the
first phase that has work; `SYM`, `ERR`, `WARN`, `CAUSE`, `EINFO` and the channels are not touched. -/
def Obligations.AcceptStartsTheCommand : Prop :=
  ∀ (i : Instr) (s : State), s.block.phase = .idle →
    exec i s = .next
      { s with
        block :=
          { s.block with
            cmd := encode i, rep := 0, cnt := 0, chip := 0, haveByte := false, acc := 0, ecode := 0
            phase :=
              match i with
              | .decomp _ => .dec
              | .enc count => if count = 0 then .finish else .enc
              | .burst _ => if s.config.repeatNum = 0 then .finish else .burst
              | .frame _ _ _ _ => .fLead } }

/-! ### DECOMP (41_dip_decomposer.md) -/

/-- R160, R161: an Emit of `DEC`: one bit of `CMD.CODE`, most significant first; only `CNT` and `PHASE` change. -/
def Obligations.DecompEmitsOneBit : Prop :=
  ∀ (code : Byte) (s : State), s.block.phase = .dec → s.block.cnt.toNat < 8 → s.sinkReady = true →
    exec (.decomp code) s = .next
      { s with
        output := s.output ++
          [.data (BitVec.ofNat 8 (((codeField s.block.cmd).toNat >>> (7 - s.block.cnt.toNat)) % 2))]
        block :=
          { s.block with
            cnt := s.block.cnt + 1
            phase := if s.block.cnt = 7 then .finish else .dec } }

/-- R163, R143: the whole of `DECOMP code`: from `IDLE`, with the sink ready and no other agent's turn scheduled, which
are this statement's own premises (log 1), it completes in its Accept, eight Emits and End with the packet
`Ok(decompose(code))`, and leaves the channels' other contents and the error registers alone; `decompose(code)` has
length 8, and its bits, each 0 or 1 by their type, recompose to the code. -/
def Obligations.DecompPacketIsDecompose : Prop :=
  ∀ (code : Byte) (s : State), s.block.phase = .idle → s.sinkReady = true → s.schedule = [] →
    (∃ t : State, exec (.decomp code) s = .next t ∧
      Host.Core.run core 9 t = .next
        { s with
          output := s.output ++ Reference.chipBeats (Reference.decompose code) ++ [.done 0x00]
          block :=
            { s.block with
              cmd := encode (.decomp code), rep := 0, cnt := 8, chip := 0, haveByte := false, acc := 0
              ecode := 0 } }) ∧
    (Reference.decompose code).length = 8 ∧
    ((List.range 8).map fun i => ((Reference.decompose code).getD i 0).toNat * 2 ^ (7 - i)).sum = code.toNat

/-! ### ENC (42_line_encoder.md) -/

/-- R172: a Pop of `ENC` that finds a valid symbol latches it; `CNT` does not change. -/
def Obligations.EncPopLatchesValidSymbol : Prop :=
  ∀ (count : Half) (s : State) (v : Byte) (rest : List Byte),
    s.block.phase = .enc → s.block.haveByte = false → s.input = v :: rest → v = 0x00 ∨ v = 0x01 →
    exec (.enc count) s = .next
      { s with
        input := rest
        block := { s.block with sym := v, haveByte := true, chip := 0 } }

/-- R174, R233, R236, R107: a Pop of `ENC` that finds an invalid symbol raises `ENC_SYMBOL` with its index and value,
counts the symbol as consumed, and goes to drain the rest; nothing is emitted. -/
def Obligations.EncPopRaisesOnInvalidSymbol : Prop :=
  ∀ (count : Half) (s : State) (v : Byte) (rest : List Byte),
    s.block.phase = .enc → s.block.haveByte = false → s.input = v :: rest → 1 < v.toNat →
    s.block.cnt.toNat < (countField s.block.cmd).toNat → s.config.skipBadSymbol = false →
    exec (.enc count) s = .next
      { s with
        input := rest
        block :=
          { s.block with
            cnt := s.block.cnt + 1
            phase :=
              if s.block.cnt.toNat + 1 = (countField s.block.cmd).toNat then .finish else .eDrain
            ecode := 0x01
            err := true
            cause := if s.block.err then s.block.cause else 0x01
            einfo :=
              if s.block.err then s.block.einfo
              else BitVec.ofNat 32 (s.block.cnt.toNat * 256 + v.toNat) } }

/-- R176: where the block is built to skip, an invalid symbol sets `WARN` and is dropped; no exception is raised and no
chip is emitted for it. -/
def Obligations.EncPopSkipsInvalidSymbol : Prop :=
  ∀ (count : Half) (s : State) (v : Byte) (rest : List Byte),
    s.block.phase = .enc → s.block.haveByte = false → s.input = v :: rest → 1 < v.toNat →
    s.block.cnt.toNat < (countField s.block.cmd).toNat → s.config.skipBadSymbol = true →
    exec (.enc count) s = .next
      { s with
        input := rest
        block :=
          { s.block with
            warn := true
            cnt := s.block.cnt + 1
            phase :=
              if s.block.cnt.toNat + 1 = (countField s.block.cmd).toNat then .finish else .enc } }

/-- R173: an Emit of `ENC`: the next chip of the held symbol's codeword; the fourth uses the symbol up. -/
def Obligations.EncEmitsOneChip : Prop :=
  ∀ (count : Half) (s : State) (x : Symbol),
    s.block.phase = .enc → s.block.haveByte = true → s.sinkReady = true →
    ((s.block.sym = 0x00 ∧ x = .zero) ∨ (s.block.sym = 0x01 ∧ x = .one)) →
    s.block.cnt.toNat < (countField s.block.cmd).toNat →
    exec (.enc count) s = .next
      { s with
        output := s.output ++ [.data (if (cwChip x s.block.chip.toFin) = 1 then 0x01 else 0x00)]
        block :=
          if s.block.chip = 3 then
            { s.block with
              chip := 0, haveByte := false, cnt := s.block.cnt + 1
              phase :=
                if s.block.cnt.toNat + 1 = (countField s.block.cmd).toNat then .finish else .enc }
          else { s.block with chip := s.block.chip + 1 } }

/-- R175: a Pop of `E_DRAIN` discards its byte unlooked at and counts it; nothing is emitted and nothing raised. -/
def Obligations.EncDrainDiscardsOneByte : Prop :=
  ∀ (count : Half) (s : State) (v : Byte) (rest : List Byte),
    s.block.phase = .eDrain → s.block.haveByte = false → s.input = v :: rest →
    s.block.cnt.toNat < (countField s.block.cmd).toNat →
    exec (.enc count) s = .next
      { s with
        input := rest
        block :=
          { s.block with
            cnt := s.block.cnt + 1
            phase :=
              if s.block.cnt.toNat + 1 = (countField s.block.cmd).toNat then .finish else .eDrain } }

/-- R177, first case, with R171 and R143: the whole of `ENC count` on valid symbols: the packet is
`Ok(encode_bits(symbols))`, exactly `COUNT` bytes are consumed, surplus bytes stay. -/
def Obligations.EncPacketIsEncodeBits : Prop :=
  ∀ (count : Half) (s : State) (symbols rest : List Byte),
    s.block.phase = .idle → s.sinkReady = true → s.schedule = [] →
    s.input = symbols ++ rest → symbols.length = count.toNat → (∀ v ∈ symbols, v = 0x00 ∨ v = 0x01) →
    ∃ t : State, exec (.enc count) s = .next t ∧
      Host.Core.run core (5 * count.toNat + 1) t = .next
        { s with
          input := rest
          output := s.output
            ++ Reference.chipBeats (Reference.encodeBits (symbols.map Reference.symbolBit)) ++ [.done 0x00]
          block :=
            { s.block with
              cmd := encode (.enc count), rep := 0, cnt := count, chip := 0, haveByte := false, acc := 0
              ecode := 0
              sym := symbols.getLast?.getD s.block.sym } }

/-- R177, second case, with R174, R175, R236 and R143: the whole of `ENC count` with an invalid symbol at index k, on a
block that does not skip: the packet is `Err(0x01)` after the chips of the symbols before it, all `COUNT` bytes are
consumed, and the first exception since reset is captured as `(k << 8) | s[k]`. -/
def Obligations.EncPacketIsErrorOnInvalidSymbol : Prop :=
  ∀ (count : Half) (s : State) (good : List Byte) (bad : Byte) (later rest : List Byte),
    s.block.phase = .idle → s.sinkReady = true → s.schedule = [] → s.config.skipBadSymbol = false →
    s.input = good ++ bad :: later ++ rest → good.length + 1 + later.length = count.toNat →
    (∀ v ∈ good, v = 0x00 ∨ v = 0x01) → 1 < bad.toNat →
    ∃ t : State, exec (.enc count) s = .next t ∧
      Host.Core.run core (5 * good.length + 1 + later.length + 1) t = .next
        { s with
          input := rest
          output := s.output
            ++ Reference.chipBeats (Reference.encodeBits (good.map Reference.symbolBit)) ++ [.done 0x01]
          block :=
            { s.block with
              cmd := encode (.enc count), rep := 0, cnt := count, chip := 0, haveByte := false, acc := 0
              sym := good.getLast?.getD s.block.sym
              ecode := 0x01
              err := true
              cause := if s.block.err then s.block.cause else 0x01
              einfo :=
                if s.block.err then s.block.einfo
                else BitVec.ofNat 32 (good.length * 256 + bad.toNat) } }

/-- R177, third case, with R176 and R143: the whole of `ENC count` on a block built to skip: the packet is `Ok` of the
codewords of the valid symbols only, and `WARN` is set when one was dropped. -/
def Obligations.EncPacketSkipsInvalidSymbols : Prop :=
  ∀ (count : Half) (s : State) (symbols rest valid : List Byte),
    s.block.phase = .idle → s.sinkReady = true → s.schedule = [] → s.config.skipBadSymbol = true →
    s.input = symbols ++ rest → symbols.length = count.toNat →
    valid = symbols.filter (fun v => decide (v.toNat ≤ 1)) →
    ∃ t : State, exec (.enc count) s = .next t ∧
      Host.Core.run core (symbols.length + 4 * valid.length + 1) t = .next
        { s with
          input := rest
          output := s.output
            ++ Reference.chipBeats (Reference.encodeBits (valid.map Reference.symbolBit)) ++ [.done 0x00]
          block :=
            { s.block with
              cmd := encode (.enc count), rep := 0, cnt := count, chip := 0, haveByte := false, acc := 0
              ecode := 0
              sym := valid.getLast?.getD s.block.sym
              warn := s.block.warn || decide (valid.length < symbols.length) } }

/-! ### BURST (42_line_encoder.md) -/

/-- R180: an Emit of `BURST`: the chip at `CNT` of the repetition; the last of a repetition steps `REP`, and the last of
the last goes to `END`. -/
def Obligations.BurstEmitsOneChip : Prop :=
  ∀ (code : Byte) (s : State) (chip : Chip),
    s.config.Admissible → s.block.phase = .burst → s.sinkReady = true →
    s.block.rep.toNat < s.config.repeatNum → s.block.cnt.toNat < s.config.repLen →
    (Reference.repetition s.config (codeField s.block.cmd))[s.block.cnt.toNat]? = some chip →
    exec (.burst code) s = .next
      { s with
        output := s.output ++ [.data (BitVec.ofNat 8 chip.toNat)]
        block :=
          if s.block.cnt.toNat + 1 = s.config.repLen then
            { s.block with
              rep := s.block.rep + 1
              cnt := 0
              phase := if s.block.rep.toNat + 1 = s.config.repeatNum then .finish else .burst }
          else { s.block with cnt := s.block.cnt + 1 } }

/-- R181, R178, R143: the whole of `BURST code`: with the sink ready it completes after `BURST_LEN` Emits and End with
the packet `Ok(build_payload(code))`, for every admissible configuration. -/
def Obligations.BurstPacketIsBuildPayload : Prop :=
  ∀ (code : Byte) (s : State),
    s.config.Admissible → s.block.phase = .idle → s.sinkReady = true → s.schedule = [] →
    ∃ t : State, exec (.burst code) s = .next t ∧
      Host.Core.run core (s.config.burstLen + 1) t = .next
        { s with
          output := s.output ++ Reference.chipBeats (Reference.buildPayload s.config code) ++ [.done 0x00]
          block :=
            { s.block with
              cmd := encode (.burst code), rep := BitVec.ofNat 16 s.config.repeatNum, cnt := 0, chip := 0
              haveByte := false, acc := 0, ecode := 0 } }

/-! ### FRAME (43_frame_builder.md) -/

/-- R201, R206: an Emit of `F_LEAD` or `F_TRAIL`: a zero byte; the tenth leaves the phase, past every part of the frame
that is empty. -/
def Obligations.FrameEmitsSilence : Prop :=
  ∀ (prelen paylen : Byte) (hdr csum : Bool) (s : State),
    s.sinkReady = true → s.block.haveByte = false → s.block.cnt.toNat < 10 →
    (s.block.phase = .fLead →
      exec (.frame prelen paylen hdr csum) s = .next
        { s with
          output := s.output ++ [.data 0x00]
          block :=
            if s.block.cnt = 9 then
              { s.block with
                cnt := 0
                phase :=
                  afterSilence (prelenField s.block.cmd) (paylenField s.block.cmd) (hdrField s.block.cmd)
                    (csumField s.block.cmd) }
            else { s.block with cnt := s.block.cnt + 1 } }) ∧
    (s.block.phase = .fTrail →
      exec (.frame prelen paylen hdr csum) s = .next
        { s with
          output := s.output ++ [.data 0x00]
          block :=
            { s.block with
              cnt := s.block.cnt + 1
              phase := if s.block.cnt = 9 then .finish else .fTrail } })

/-- R202, R204: a Pop of `F_PRE` or `F_PAY` holds the byte, whatever its value. -/
def Obligations.FramePopsOneByte : Prop :=
  ∀ (prelen paylen : Byte) (hdr csum : Bool) (s : State) (v : Byte) (rest : List Byte),
    s.block.phase = .fPre ∨ s.block.phase = .fPay → s.block.haveByte = false → s.input = v :: rest →
    exec (.frame prelen paylen hdr csum) s = .next
      { s with input := rest, block := { s.block with sym := v, haveByte := true } }

/-- R202: an Emit of `F_PRE`: the held byte, verbatim; `ACC` is not touched; the last preamble byte leaves the phase. -/
def Obligations.FrameEmitsPreambleByte : Prop :=
  ∀ (prelen paylen : Byte) (hdr csum : Bool) (s : State),
    s.block.phase = .fPre → s.block.haveByte = true → s.sinkReady = true →
    s.block.cnt.toNat < (prelenField s.block.cmd).toNat →
    exec (.frame prelen paylen hdr csum) s = .next
      { s with
        output := s.output ++ [.data s.block.sym]
        block :=
          if s.block.cnt.toNat + 1 = (prelenField s.block.cmd).toNat then
            { s.block with
              haveByte := false
              cnt := 0
              phase :=
                afterPreamble (paylenField s.block.cmd) (hdrField s.block.cmd) (csumField s.block.cmd) }
          else { s.block with haveByte := false, cnt := s.block.cnt + 1 } }

/-- R203, R106: an Emit of `F_HDR`: the four bytes are `0x00, PAYLEN, 0x00, PAYLEN`, by position. -/
def Obligations.FrameEmitsHeaderByte : Prop :=
  ∀ (prelen paylen : Byte) (hdr csum : Bool) (s : State) (v : Byte),
    s.block.phase = .fHdr → s.block.haveByte = false → s.sinkReady = true → hdrField s.block.cmd = true →
    [0x00, paylenField s.block.cmd, 0x00, paylenField s.block.cmd][s.block.cnt.toNat]? = some v →
    exec (.frame prelen paylen hdr csum) s = .next
      { s with
        output := s.output ++ [.data v]
        block :=
          if s.block.cnt = 3 then
            { s.block with
              cnt := 0
              phase := afterHeader (paylenField s.block.cmd) (csumField s.block.cmd) }
          else { s.block with cnt := s.block.cnt + 1 } }

/-- R204, R23: an Emit of `F_PAY`: the held byte, verbatim, added into `ACC` modulo 256 whether or not a checksum is
asked for; the last payload byte leaves the phase. -/
def Obligations.FrameEmitsPayloadByte : Prop :=
  ∀ (prelen paylen : Byte) (hdr csum : Bool) (s : State),
    s.block.phase = .fPay → s.block.haveByte = true → s.sinkReady = true →
    s.block.cnt.toNat < (paylenField s.block.cmd).toNat →
    exec (.frame prelen paylen hdr csum) s = .next
      { s with
        output := s.output ++ [.data s.block.sym]
        block :=
          if s.block.cnt.toNat + 1 = (paylenField s.block.cmd).toNat then
            { s.block with
              acc := BitVec.ofNat 8 ((s.block.acc.toNat + s.block.sym.toNat) % 256)
              haveByte := false
              cnt := 0
              phase := afterPayload (csumField s.block.cmd) }
          else
            { s.block with
              acc := BitVec.ofNat 8 ((s.block.acc.toNat + s.block.sym.toNat) % 256)
              haveByte := false
              cnt := s.block.cnt + 1 } }

/-- R205: the Emit of `F_CSUM`: `ACC`, once, then the trailing silence. -/
def Obligations.FrameEmitsChecksum : Prop :=
  ∀ (prelen paylen : Byte) (hdr csum : Bool) (s : State),
    s.block.phase = .fCsum → s.block.cnt = 0 → s.sinkReady = true → csumField s.block.cmd = true →
    exec (.frame prelen paylen hdr csum) s = .next
      { s with
        output := s.output ++ [.data s.block.acc]
        block := { s.block with cnt := 0, phase := .fTrail } }

/-- R207, R209, R143: the whole of `FRAME`: with its preamble and payload offered, the sink ready and no other agent's
turn scheduled, which are this statement's own premises (log 1), it completes with the packet
`Ok(build_frame(pre, pay, hdr, cs))`; exactly `PRELEN + PAYLEN` bytes are consumed. -/
def Obligations.FramePacketIsBuildFrame : Prop :=
  ∀ (prelen paylen : Byte) (hdr csum : Bool) (s : State) (pre pay rest : List Byte),
    s.block.phase = .idle → s.sinkReady = true → s.schedule = [] →
    s.input = pre ++ pay ++ rest → pre.length = prelen.toNat → pay.length = paylen.toNat →
    ∃ t : State, exec (.frame prelen paylen hdr csum) s = .next t ∧
      Host.Core.run core
          (pre.length + pay.length + (Reference.buildFrame pre pay hdr csum).length + 1) t = .next
        { s with
          input := rest
          output := s.output ++ Reference.byteBeats (Reference.buildFrame pre pay hdr csum) ++ [.done 0x00]
          block :=
            { s.block with
              cmd := encode (.frame prelen paylen hdr csum), rep := 0, cnt := 10, chip := 0
              haveByte := false, ecode := 0
              acc := Reference.checksum pay
              sym := (pre ++ pay).getLast?.getD s.block.sym } }

/-! ### The machine as a whole -/

/-- R133: `normalise()` ends at the exit of its loop: one more pass changes nothing. It never changes `IDLE` or `END`,
and it writes no register but `PHASE`, `REP` and `CNT`. -/
def Obligations.NormaliseReachesItsExit : Prop :=
  ∀ (c : Config) (b : Block),
    advance c (normalise c b) = normalise c b ∧
    (b.phase = .idle ∨ b.phase = .finish → normalise c b = b) ∧
    normalise c b =
      { b with phase := (normalise c b).phase, rep := (normalise c b).rep, cnt := (normalise c b).cnt }

/-- R40 holds at reset. -/
def Obligations.ResetStateIsSound : Prop := State.reset.Sound

/-- R40, with R21, R31, R100 and R132: every step, of any agent, from every sound state leaves a sound state. -/
def Obligations.EveryStepKeepsSoundness : Prop :=
  ∀ s t : State, s.Sound → step s = .next t → t.Sound

/-- R232, last sentence, R142: from a sound state no step faults or is refused. That a wait is a next state (log 5,
DEDUCED) and which faults there are (log 7, DEDUCED) are the model's. -/
def Obligations.SoundStatesNeverStop : Prop :=
  ∀ s : State, s.Sound → ∃ t : State, step s = .next t

/-- R137: the handshake outputs are the functions of the state the rule gives, and in every sound state exactly one of
`cmd_ready`, `in_ready`, `out_valid` is 1. -/
def Obligations.ExactlyOneHandshakeIsUp : Prop :=
  ∀ s : State,
    ((pins s).cmdReady = true ↔ s.block.phase = .idle) ∧
    ((pins s).inReady = true ↔
      s.block.phase ∈ [Phase.enc, .eDrain, .fPre, .fPay] ∧ s.block.haveByte = false) ∧
    ((pins s).outValid = true ↔
      s.block.phase ∈ [Phase.dec, .burst, .fLead, .fHdr, .fCsum, .fTrail, .finish] ∨
        (s.block.phase ∈ [Phase.enc, .fPre, .fPay] ∧ s.block.haveByte = true)) ∧
    ((pins s).outEnd = true ↔ s.block.phase = .finish) ∧
    (s.Sound → (pins s).cmdReady.toNat + (pins s).inReady.toNat + (pins s).outValid.toNat = 1)

/-- R63, R65, R136: on the block's turn a beat crosses a channel exactly when `valid` and `ready` of that channel are
both 1, and it is the one on the pins; when none crosses, nothing changes. -/
def Obligations.BeatsCrossOnValidAndReady : Prop :=
  ∀ s t : State, s.BlockMoves → step s = .next t →
    t.commands = (if (pins s).cmdTransfer then s.commands.tail else s.commands) ∧
    t.input = (if (pins s).inTransfer then s.input.tail else s.input) ∧
    (if (pins s).outTransfer then
      ∃ v, (pins s).outData = some v ∧
        t.output = s.output ++ [if (pins s).outEnd then OutRecord.done v else OutRecord.data v]
    else t.output = s.output) ∧
    ((pins s).cmdTransfer = false → (pins s).inTransfer = false → (pins s).outTransfer = false →
      t = { s with schedule := s.schedule.tail })

/-- R140: a step of the block moves `PHASE` only along the order of phases. -/
def Obligations.PhasesFollowTheirOrder : Prop :=
  ∀ s t : State, s.BlockMoves → step s = .next t → t.block.phase ∈ mayFollow s.config s.block.phase

/-- R139: while a command is in flight `cmd_ready` is 0 and no step takes a command word; what is offered waits, and
offering a word then is no error: no register changes. -/
def Obligations.OneCommandInFlight : Prop :=
  ∀ s t : State, s.block.phase ≠ .idle → step s = .next t →
    (pins s).cmdReady = false ∧ (∃ more, t.commands = s.commands ++ more) ∧
    (s.BlockMoves → t.commands = s.commands) ∧
    (∀ w rest, s.schedule = .command w :: rest → t.block = s.block ∧ t.commands = s.commands ++ [w])

/-- R21, R22, R23, R26, R28: which step may write `CMD`, `SYM`, `ACC`, `REP` and `CHIP`, and with what. -/
def Obligations.RegistersChangeOnlyInTheirSteps : Prop :=
  ∀ s t : State, s.BlockMoves → step s = .next t →
    (t.block.cmd ≠ s.block.cmd → s.block.phase = .idle ∧ s.commands.head? = some t.block.cmd) ∧
    (t.block.sym ≠ s.block.sym → s.block.inReady = true ∧ s.input.head? = some t.block.sym) ∧
    (t.block.acc ≠ s.block.acc →
      (s.block.phase = .idle ∧ t.block.acc = 0) ∨
        (s.block.phase = .fPay ∧ s.block.haveByte = true ∧ t.block.acc = s.block.acc + s.block.sym)) ∧
    (t.block.rep ≠ s.block.rep →
      (s.block.phase = .idle ∧ t.block.rep = 0) ∨
        (s.block.phase = .burst ∧ t.block.rep = s.block.rep + 1)) ∧
    (t.block.chip ≠ s.block.chip →
      (s.block.phase = .idle ∧ t.block.chip = 0) ∨ s.block.phase = .enc)

/-- R30, R33, R34, R237, R238: on any turn but reset the first captured exception stays, and one newly captured has the
cause of its own command's completion code, with the information word R107 gives. -/
def Obligations.FirstExceptionIsKept : Prop :=
  ∀ s t : State, s.BlockMoves → step s = .next t →
    (s.block.err = true →
      t.block.err = true ∧ t.block.cause = s.block.cause ∧ t.block.einfo = s.block.einfo) ∧
    (s.block.err = false → t.block.err = true →
      t.block.cause = t.block.ecode ∧
        ((t.block.cause = 0x02 ∧ s.block.phase = .idle ∧ t.block.einfo = t.block.cmd) ∨
          (t.block.cause = 0x01 ∧ s.block.phase = .enc ∧
            ∃ v rest, s.input = v :: rest ∧ 1 < v.toNat ∧
              t.block.einfo = BitVec.ofNat 32 (s.block.cnt.toNat * 256 + v.toNat)))) ∧
    (s.block.err = false → t.block.err = false →
      t.block.cause = s.block.cause ∧ t.block.einfo = s.block.einfo)

/-- R31: `WARN` is cleared by no step but reset, and set only by a skipped symbol on a block built to skip. -/
def Obligations.WarnIsSetOnlyBySkipping : Prop :=
  ∀ s t : State, s.BlockMoves → step s = .next t →
    (s.block.warn = true → t.block.warn = true) ∧
    (s.block.warn = false → t.block.warn = true →
      s.config.skipBadSymbol = true ∧ s.block.phase = .enc ∧ s.block.haveByte = false ∧
        ∃ v rest, s.input = v :: rest ∧ 1 < v.toNat)

/-- R231: `DECOMP`, `BURST` and `FRAME` raise nothing and set no status: none of their steps writes `ERR`, `WARN`,
`CAUSE` or `EINFO`, and their completion code stays what it was, 0x00 from Accept on. -/
def Obligations.OnlyEncRaises : Prop :=
  ∀ (i : Instr) (s t : State), (∀ count, i ≠ .enc count) → exec i s = .next t →
    t.block.err = s.block.err ∧ t.block.warn = s.block.warn ∧ t.block.cause = s.block.cause ∧
      t.block.einfo = s.block.einfo ∧ (t.block.ecode = s.block.ecode ∨ t.block.ecode = 0x00)

/-- R65, R69, R134, R135, R36: the frame of every step of every command: the configuration, the offered commands, the
sink and the schedule are left alone, and at most one byte is popped or one beat appended, never both. -/
def Obligations.CommandsTouchOneChannelAtATime : Prop :=
  ∀ (i : Instr) (s t : State), exec i s = .next t →
    t.config = s.config ∧ t.commands = s.commands ∧ t.sinkReady = s.sinkReady ∧ t.schedule = s.schedule ∧
    ((t.input = s.input ∧ t.output = s.output) ∨
      (t.output = s.output ∧ s.block.inReady = true ∧ ∃ v, s.input = v :: t.input) ∨
      (t.input = s.input ∧ s.block.outValid = true ∧ s.sinkReady = true ∧
        ∃ v, t.output = s.output ++ [.data v] ∨
          (s.block.phase = .finish ∧ t.output = s.output ++ [.done v])))

/-- R36, R7: no step of any agent, reset among them, changes a configuration constant, which this model
carries in State (log 4); and `OUT` only grows (R65). -/
def Obligations.ConfigurationNeverChanges : Prop :=
  ∀ (n : Nat) (s t : State), Host.Core.run core n s = .next t →
    t.config = s.config ∧ s.output <+: t.output

/-- R142: with enough input offered and the sink taking beats, a busy block comes back to `IDLE` after finitely many
steps. -/
def Obligations.BusyBlockReturnsToIdle : Prop :=
  ∀ s : State, s.Sound → s.schedule = [] → s.sinkReady = true → 65535 ≤ s.input.length →
    ∃ (n : Nat) (t : State), n ≤ 2 ^ 32 ∧ Host.Core.run core n s = .next t ∧ t.block.phase = .idle

/-- R142, R72 (b), R72 (c), R143, R264: every command, from `IDLE`, with its `need` bytes offered and the sink taking
beats, ends: after its Accept, `need` Pops, one Emit for each DATA beat and one End the block is in `IDLE` again, exactly
its `need` oldest bytes are consumed, and its beats are DATA beats closed by exactly one END beat, of code 0x00 or, for
`ENC` alone, 0x01. -/
def Obligations.EveryCommandConsumesItsNeedAndEnds : Prop :=
  ∀ (i : Instr) (s : State),
    s.config.Admissible → s.block.phase = .idle → s.sinkReady = true → s.schedule = [] →
    need i ≤ s.input.length →
    ∃ (data : List Byte) (code : Byte) (t u : State), exec i s = .next t ∧
      Host.Core.run core (need i + data.length + 1) t = .next u ∧
      u.block.phase = .idle ∧ u.input = s.input.drop (need i) ∧
      u.output = s.output ++ Reference.byteBeats data ++ [.done code] ∧
      u.commands = s.commands ∧ (code = 0x00 ∨ (code = 0x01 ∧ ∃ count, i = .enc count))

/-- R138, R72 (f): timing changes no value. Two machines in the same registers and configuration, offered the same
command words and the same input bytes in the same order, whenever the host offers them and whenever the sink is ready,
produce the same beats: after any two runs one history continues the other, and where as much has crossed every channel
the registers are equal. -/
def Obligations.TimingChangesNoValue : Prop :=
  ∀ (s₁ s₂ t₁ t₂ : State) (n₁ n₂ : Nat),
    s₁.block = s₂.block → s₁.config = s₂.config → s₁.output = s₂.output →
    s₁.allCommands = s₂.allCommands → s₁.allInput = s₂.allInput → s₁.NoReset → s₂.NoReset →
    Host.Core.run core n₁ s₁ = .next t₁ → Host.Core.run core n₂ s₂ = .next t₂ →
    (t₁.output <+: t₂.output ∨ t₂.output <+: t₁.output) ∧
    (t₁.allCommands.length = t₂.allCommands.length → t₁.allInput.length = t₂.allInput.length →
      t₁.output.length = t₂.output.length → t₁.block = t₂.block ∧ t₁.output = t₂.output)
end

