-- ==== Sys2Proof/Laws/Encoding.lean ====
section
/-! SUPPORT. The fields and the word of a command as numbers, so that claims about encodings are arithmetic. -/

namespace Sys2Proof

theorem or_toNat_of_lt {n : Nat} (x y : BitVec n) (i a : Nat) (hx : x.toNat = 2 ^ i * a)
    (hy : y.toNat < 2 ^ i) : (x ||| y).toNat = x.toNat + y.toNat := by
  rw [BitVec.toNat_or, hx, Nat.two_pow_add_eq_or_of_lt hy]

/-! ### Fields -/

theorem opcField_toNat (w : Word) : (opcField w).toNat = w.toNat / 2 ^ 28 := by
  have := w.isLt
  simp only [opcField, BitVec.extractLsb'_toNat, Nat.shiftRight_eq_div_pow]
  omega

theorem codeField_toNat (w : Word) : (codeField w).toNat = w.toNat % 2 ^ 8 := by
  simp [codeField, BitVec.extractLsb'_toNat]

theorem countField_toNat (w : Word) : (countField w).toNat = w.toNat % 2 ^ 16 := by
  simp [countField, BitVec.extractLsb'_toNat]

theorem paylenField_toNat (w : Word) : (paylenField w).toNat = w.toNat % 2 ^ 8 := by
  simp [paylenField, BitVec.extractLsb'_toNat]

theorem prelenField_toNat (w : Word) : (prelenField w).toNat = w.toNat / 2 ^ 8 % 2 ^ 8 := by
  simp [prelenField, BitVec.extractLsb'_toNat, Nat.shiftRight_eq_div_pow]

theorem hdrField_eq (w : Word) : hdrField w = decide (w.toNat / 2 ^ 16 % 2 = 1) := by
  simp [hdrField, BitVec.getLsbD, Nat.testBit_eq_decide_div_mod_eq]

theorem csumField_eq (w : Word) : csumField w = decide (w.toNat / 2 ^ 17 % 2 = 1) := by
  simp [csumField, BitVec.getLsbD, Nat.testBit_eq_decide_div_mod_eq]

theorem reservedC_toNat (w : Word) : (reservedC w).toNat = w.toNat / 2 ^ 8 % 2 ^ 20 := by
  simp [reservedC, BitVec.extractLsb'_toNat, Nat.shiftRight_eq_div_pow]

theorem reservedN_toNat (w : Word) : (reservedN w).toNat = w.toNat / 2 ^ 16 % 2 ^ 12 := by
  simp [reservedN, BitVec.extractLsb'_toNat, Nat.shiftRight_eq_div_pow]

theorem reservedF_toNat (w : Word) : (reservedF w).toNat = w.toNat / 2 ^ 18 % 2 ^ 10 := by
  simp [reservedF, BitVec.extractLsb'_toNat, Nat.shiftRight_eq_div_pow]

/-! ### Words -/

theorem encode_decomp_toNat (code : Byte) : (encode (.decomp code)).toNat = 2 ^ 28 + code.toNat := by
  have := code.isLt
  rw [encode, or_toNat_of_lt _ _ 28 1 rfl (by simp; omega)]
  simp; omega

theorem encode_enc_toNat (count : Half) : (encode (.enc count)).toNat = 2 * 2 ^ 28 + count.toNat := by
  have := count.isLt
  rw [encode, or_toNat_of_lt _ _ 28 2 rfl (by simp; omega)]
  simp; omega

theorem encode_burst_toNat (code : Byte) : (encode (.burst code)).toNat = 3 * 2 ^ 28 + code.toNat := by
  have := code.isLt
  rw [encode, or_toNat_of_lt _ _ 28 3 rfl (by simp; omega)]
  simp; omega

theorem flagWord_toNat (b : Bool) : (flagWord b).toNat = b.toNat := by cases b <;> rfl

theorem encode_frame_toNat (prelen paylen : Byte) (hdr csum : Bool) :
    (encode (.frame prelen paylen hdr csum)).toNat =
      4 * 2 ^ 28 + csum.toNat * 2 ^ 17 + hdr.toNat * 2 ^ 16 + prelen.toNat * 2 ^ 8 + paylen.toNat := by
  have hp := prelen.isLt
  have hn := paylen.isLt
  have e1 : (flagWord csum <<< 17).toNat = csum.toNat * 2 ^ 17 := by cases csum <;> rfl
  have e2 : (flagWord hdr <<< 16).toNat = hdr.toNat * 2 ^ 16 := by cases hdr <;> rfl
  have e3 : (prelen.setWidth 32 <<< 8).toNat = prelen.toNat * 2 ^ 8 := by
    simp [Nat.shiftLeft_eq]; omega
  have e4 : (paylen.setWidth 32).toNat = paylen.toNat := by simp; omega
  have b1 := csum.toNat_le
  have b2 := hdr.toNat_le
  have s1 : (0x40000000#32 ||| flagWord csum <<< 17).toNat = 4 * 2 ^ 28 + csum.toNat * 2 ^ 17 := by
    rw [or_toNat_of_lt _ _ 28 4 rfl (by omega), e1]; rfl
  have s2 : (0x40000000#32 ||| flagWord csum <<< 17 ||| flagWord hdr <<< 16).toNat =
      4 * 2 ^ 28 + csum.toNat * 2 ^ 17 + hdr.toNat * 2 ^ 16 := by
    rw [or_toNat_of_lt _ _ 17 (8192 + csum.toNat) (by omega) (by omega), s1, e2]
  have s3 : (0x40000000#32 ||| flagWord csum <<< 17 ||| flagWord hdr <<< 16
      ||| prelen.setWidth 32 <<< 8).toNat =
      4 * 2 ^ 28 + csum.toNat * 2 ^ 17 + hdr.toNat * 2 ^ 16 + prelen.toNat * 2 ^ 8 := by
    rw [or_toNat_of_lt _ _ 16 (16384 + csum.toNat * 2 + hdr.toNat) (by omega) (by omega), s2, e3]
  rw [encode, or_toNat_of_lt _ _ 8 (4194304 + csum.toNat * 512 + hdr.toNat * 256 + prelen.toNat)
    (by omega) (by omega), s3, e4]

/-! ### Decoding and legality -/

/-- What a word that decodes is: its opcode, its reserved bits and the command of its fields (R96). -/
theorem decode_eq_ok_iff (w : Word) (i : Instr) :
    decode w = .ok i ↔
      (w.toNat / 2 ^ 28 = 1 ∧ w.toNat / 2 ^ 8 % 2 ^ 20 = 0 ∧ i = .decomp (codeField w)) ∨
      (w.toNat / 2 ^ 28 = 2 ∧ w.toNat / 2 ^ 16 % 2 ^ 12 = 0 ∧ i = .enc (countField w)) ∨
      (w.toNat / 2 ^ 28 = 3 ∧ w.toNat / 2 ^ 8 % 2 ^ 20 = 0 ∧ i = .burst (codeField w)) ∨
      (w.toNat / 2 ^ 28 = 4 ∧ w.toNat / 2 ^ 18 % 2 ^ 10 = 0 ∧
        i = .frame (prelenField w) (paylenField w) (hdrField w) (csumField w)) := by
  have e (v : BitVec 4) : opcField w = v ↔ w.toNat / 2 ^ 28 = v.toNat := by
    rw [← BitVec.toNat_inj, opcField_toNat]
  have eC : reservedC w = 0 ↔ w.toNat / 2 ^ 8 % 2 ^ 20 = 0 := by
    rw [← BitVec.toNat_inj, reservedC_toNat]; rfl
  have eN : reservedN w = 0 ↔ w.toNat / 2 ^ 16 % 2 ^ 12 = 0 := by
    rw [← BitVec.toNat_inj, reservedN_toNat]; rfl
  have eF : reservedF w = 0 ↔ w.toNat / 2 ^ 18 % 2 ^ 10 = 0 := by
    rw [← BitVec.toNat_inj, reservedF_toNat]; rfl
  unfold decode
  simp only [e, eC, eN, eF]
  simp only [show BitVec.toNat (1 : BitVec 4) = 1 from rfl, show BitVec.toNat (2 : BitVec 4) = 2 from rfl,
    show BitVec.toNat (3 : BitVec 4) = 3 from rfl, show BitVec.toNat (4 : BitVec 4) = 4 from rfl]
  generalize w.toNat / 2 ^ 28 = o
  generalize w.toNat / 2 ^ 8 % 2 ^ 20 = rc
  generalize w.toNat / 2 ^ 16 % 2 ^ 12 = rn
  generalize w.toNat / 2 ^ 18 % 2 ^ 10 = rf
  repeat' split
  all_goals (try simp_all; try omega)
  all_goals (constructor <;> rintro rfl <;> rfl)

theorem and_mask8_toNat (w : Word) : (w &&& 0xFFFFFF00#32).toNat = w.toNat / 2 ^ 8 * 2 ^ 8 := by
  have e : w &&& 0xFFFFFF00#32 = (w >>> 8) <<< 8 := by ext i hi; interval_cases i <;> simp
  have := w.isLt
  rw [e, BitVec.toNat_shiftLeft, BitVec.toNat_ushiftRight, Nat.shiftRight_eq_div_pow, Nat.shiftLeft_eq]
  omega

theorem and_mask16_toNat (w : Word) : (w &&& 0xFFFF0000#32).toNat = w.toNat / 2 ^ 16 * 2 ^ 16 := by
  have e : w &&& 0xFFFF0000#32 = (w >>> 16) <<< 16 := by ext i hi; interval_cases i <;> simp
  have := w.isLt
  rw [e, BitVec.toNat_shiftLeft, BitVec.toNat_ushiftRight, Nat.shiftRight_eq_div_pow, Nat.shiftLeft_eq]
  omega

theorem and_mask18_toNat (w : Word) : (w &&& 0xFFFC0000#32).toNat = w.toNat / 2 ^ 18 * 2 ^ 18 := by
  have e : w &&& 0xFFFC0000#32 = (w >>> 18) <<< 18 := by ext i hi; interval_cases i <;> simp
  have := w.isLt
  rw [e, BitVec.toNat_shiftLeft, BitVec.toNat_ushiftRight, Nat.shiftRight_eq_div_pow, Nat.shiftLeft_eq]
  omega

end Sys2Proof
end

