-- ==== Sys2Proof/Laws/State.lean ====
section
/-! SUPPORT. One lemma per field per update of the registers and of the state, so that no later proof unfolds an update. -/

namespace Sys2Proof.Machine

namespace Block

variable (b : Block)

/-! ### setPhase -/

@[simp] theorem setPhase_cmd (p : Phase) : (b.setPhase p).cmd = b.cmd := rfl
@[simp] theorem setPhase_sym (p : Phase) : (b.setPhase p).sym = b.sym := rfl
@[simp] theorem setPhase_acc (p : Phase) : (b.setPhase p).acc = b.acc := rfl
@[simp] theorem setPhase_phase (p : Phase) : (b.setPhase p).phase = p := rfl
@[simp] theorem setPhase_rep (p : Phase) : (b.setPhase p).rep = b.rep := rfl
@[simp] theorem setPhase_cnt (p : Phase) : (b.setPhase p).cnt = b.cnt := rfl
@[simp] theorem setPhase_chip (p : Phase) : (b.setPhase p).chip = b.chip := rfl
@[simp] theorem setPhase_haveByte (p : Phase) : (b.setPhase p).haveByte = b.haveByte := rfl
@[simp] theorem setPhase_ecode (p : Phase) : (b.setPhase p).ecode = b.ecode := rfl
@[simp] theorem setPhase_err (p : Phase) : (b.setPhase p).err = b.err := rfl
@[simp] theorem setPhase_warn (p : Phase) : (b.setPhase p).warn = b.warn := rfl
@[simp] theorem setPhase_cause (p : Phase) : (b.setPhase p).cause = b.cause := rfl
@[simp] theorem setPhase_einfo (p : Phase) : (b.setPhase p).einfo = b.einfo := rfl

/-! ### enterPhase -/

@[simp] theorem enterPhase_cmd (p : Phase) : (b.enterPhase p).cmd = b.cmd := rfl
@[simp] theorem enterPhase_sym (p : Phase) : (b.enterPhase p).sym = b.sym := rfl
@[simp] theorem enterPhase_acc (p : Phase) : (b.enterPhase p).acc = b.acc := rfl
@[simp] theorem enterPhase_phase (p : Phase) : (b.enterPhase p).phase = p := rfl
@[simp] theorem enterPhase_rep (p : Phase) : (b.enterPhase p).rep = b.rep := rfl
@[simp] theorem enterPhase_cnt (p : Phase) : (b.enterPhase p).cnt = 0 := rfl
@[simp] theorem enterPhase_chip (p : Phase) : (b.enterPhase p).chip = b.chip := rfl
@[simp] theorem enterPhase_haveByte (p : Phase) : (b.enterPhase p).haveByte = b.haveByte := rfl
@[simp] theorem enterPhase_ecode (p : Phase) : (b.enterPhase p).ecode = b.ecode := rfl
@[simp] theorem enterPhase_err (p : Phase) : (b.enterPhase p).err = b.err := rfl
@[simp] theorem enterPhase_warn (p : Phase) : (b.enterPhase p).warn = b.warn := rfl
@[simp] theorem enterPhase_cause (p : Phase) : (b.enterPhase p).cause = b.cause := rfl
@[simp] theorem enterPhase_einfo (p : Phase) : (b.enterPhase p).einfo = b.einfo := rfl

/-! ### countUp -/

@[simp] theorem countUp_cmd : (b.countUp).cmd = b.cmd := rfl
@[simp] theorem countUp_sym : (b.countUp).sym = b.sym := rfl
@[simp] theorem countUp_acc : (b.countUp).acc = b.acc := rfl
@[simp] theorem countUp_phase : (b.countUp).phase = b.phase := rfl
@[simp] theorem countUp_rep : (b.countUp).rep = b.rep := rfl
@[simp] theorem countUp_cnt : (b.countUp).cnt = b.cnt + 1 := rfl
@[simp] theorem countUp_chip : (b.countUp).chip = b.chip := rfl
@[simp] theorem countUp_haveByte : (b.countUp).haveByte = b.haveByte := rfl
@[simp] theorem countUp_ecode : (b.countUp).ecode = b.ecode := rfl
@[simp] theorem countUp_err : (b.countUp).err = b.err := rfl
@[simp] theorem countUp_warn : (b.countUp).warn = b.warn := rfl
@[simp] theorem countUp_cause : (b.countUp).cause = b.cause := rfl
@[simp] theorem countUp_einfo : (b.countUp).einfo = b.einfo := rfl

/-! ### nextRepetition -/

@[simp] theorem nextRepetition_cmd : (b.nextRepetition).cmd = b.cmd := rfl
@[simp] theorem nextRepetition_sym : (b.nextRepetition).sym = b.sym := rfl
@[simp] theorem nextRepetition_acc : (b.nextRepetition).acc = b.acc := rfl
@[simp] theorem nextRepetition_phase : (b.nextRepetition).phase = b.phase := rfl
@[simp] theorem nextRepetition_rep : (b.nextRepetition).rep = b.rep + 1 := rfl
@[simp] theorem nextRepetition_cnt : (b.nextRepetition).cnt = 0 := rfl
@[simp] theorem nextRepetition_chip : (b.nextRepetition).chip = b.chip := rfl
@[simp] theorem nextRepetition_haveByte : (b.nextRepetition).haveByte = b.haveByte := rfl
@[simp] theorem nextRepetition_ecode : (b.nextRepetition).ecode = b.ecode := rfl
@[simp] theorem nextRepetition_err : (b.nextRepetition).err = b.err := rfl
@[simp] theorem nextRepetition_warn : (b.nextRepetition).warn = b.warn := rfl
@[simp] theorem nextRepetition_cause : (b.nextRepetition).cause = b.cause := rfl
@[simp] theorem nextRepetition_einfo : (b.nextRepetition).einfo = b.einfo := rfl

/-! ### latchByte -/

@[simp] theorem latchByte_cmd (v : Byte) : (b.latchByte v).cmd = b.cmd := rfl
@[simp] theorem latchByte_sym (v : Byte) : (b.latchByte v).sym = v := rfl
@[simp] theorem latchByte_acc (v : Byte) : (b.latchByte v).acc = b.acc := rfl
@[simp] theorem latchByte_phase (v : Byte) : (b.latchByte v).phase = b.phase := rfl
@[simp] theorem latchByte_rep (v : Byte) : (b.latchByte v).rep = b.rep := rfl
@[simp] theorem latchByte_cnt (v : Byte) : (b.latchByte v).cnt = b.cnt := rfl
@[simp] theorem latchByte_chip (v : Byte) : (b.latchByte v).chip = b.chip := rfl
@[simp] theorem latchByte_haveByte (v : Byte) : (b.latchByte v).haveByte = true := rfl
@[simp] theorem latchByte_ecode (v : Byte) : (b.latchByte v).ecode = b.ecode := rfl
@[simp] theorem latchByte_err (v : Byte) : (b.latchByte v).err = b.err := rfl
@[simp] theorem latchByte_warn (v : Byte) : (b.latchByte v).warn = b.warn := rfl
@[simp] theorem latchByte_cause (v : Byte) : (b.latchByte v).cause = b.cause := rfl
@[simp] theorem latchByte_einfo (v : Byte) : (b.latchByte v).einfo = b.einfo := rfl

/-! ### latchSymbol -/

@[simp] theorem latchSymbol_cmd (v : Byte) : (b.latchSymbol v).cmd = b.cmd := rfl
@[simp] theorem latchSymbol_sym (v : Byte) : (b.latchSymbol v).sym = v := rfl
@[simp] theorem latchSymbol_acc (v : Byte) : (b.latchSymbol v).acc = b.acc := rfl
@[simp] theorem latchSymbol_phase (v : Byte) : (b.latchSymbol v).phase = b.phase := rfl
@[simp] theorem latchSymbol_rep (v : Byte) : (b.latchSymbol v).rep = b.rep := rfl
@[simp] theorem latchSymbol_cnt (v : Byte) : (b.latchSymbol v).cnt = b.cnt := rfl
@[simp] theorem latchSymbol_chip (v : Byte) : (b.latchSymbol v).chip = 0 := rfl
@[simp] theorem latchSymbol_haveByte (v : Byte) : (b.latchSymbol v).haveByte = true := rfl
@[simp] theorem latchSymbol_ecode (v : Byte) : (b.latchSymbol v).ecode = b.ecode := rfl
@[simp] theorem latchSymbol_err (v : Byte) : (b.latchSymbol v).err = b.err := rfl
@[simp] theorem latchSymbol_warn (v : Byte) : (b.latchSymbol v).warn = b.warn := rfl
@[simp] theorem latchSymbol_cause (v : Byte) : (b.latchSymbol v).cause = b.cause := rfl
@[simp] theorem latchSymbol_einfo (v : Byte) : (b.latchSymbol v).einfo = b.einfo := rfl

/-! ### releaseByte -/

@[simp] theorem releaseByte_cmd : (b.releaseByte).cmd = b.cmd := rfl
@[simp] theorem releaseByte_sym : (b.releaseByte).sym = b.sym := rfl
@[simp] theorem releaseByte_acc : (b.releaseByte).acc = b.acc := rfl
@[simp] theorem releaseByte_phase : (b.releaseByte).phase = b.phase := rfl
@[simp] theorem releaseByte_rep : (b.releaseByte).rep = b.rep := rfl
@[simp] theorem releaseByte_cnt : (b.releaseByte).cnt = b.cnt + 1 := rfl
@[simp] theorem releaseByte_chip : (b.releaseByte).chip = b.chip := rfl
@[simp] theorem releaseByte_haveByte : (b.releaseByte).haveByte = false := rfl
@[simp] theorem releaseByte_ecode : (b.releaseByte).ecode = b.ecode := rfl
@[simp] theorem releaseByte_err : (b.releaseByte).err = b.err := rfl
@[simp] theorem releaseByte_warn : (b.releaseByte).warn = b.warn := rfl
@[simp] theorem releaseByte_cause : (b.releaseByte).cause = b.cause := rfl
@[simp] theorem releaseByte_einfo : (b.releaseByte).einfo = b.einfo := rfl

/-! ### releasePayloadByte -/

@[simp] theorem releasePayloadByte_cmd : (b.releasePayloadByte).cmd = b.cmd := rfl
@[simp] theorem releasePayloadByte_sym : (b.releasePayloadByte).sym = b.sym := rfl
@[simp] theorem releasePayloadByte_acc : (b.releasePayloadByte).acc = addChecksum b.acc b.sym := rfl
@[simp] theorem releasePayloadByte_phase : (b.releasePayloadByte).phase = b.phase := rfl
@[simp] theorem releasePayloadByte_rep : (b.releasePayloadByte).rep = b.rep := rfl
@[simp] theorem releasePayloadByte_cnt : (b.releasePayloadByte).cnt = b.cnt + 1 := rfl
@[simp] theorem releasePayloadByte_chip : (b.releasePayloadByte).chip = b.chip := rfl
@[simp] theorem releasePayloadByte_haveByte : (b.releasePayloadByte).haveByte = false := rfl
@[simp] theorem releasePayloadByte_ecode : (b.releasePayloadByte).ecode = b.ecode := rfl
@[simp] theorem releasePayloadByte_err : (b.releasePayloadByte).err = b.err := rfl
@[simp] theorem releasePayloadByte_warn : (b.releasePayloadByte).warn = b.warn := rfl
@[simp] theorem releasePayloadByte_cause : (b.releasePayloadByte).cause = b.cause := rfl
@[simp] theorem releasePayloadByte_einfo : (b.releasePayloadByte).einfo = b.einfo := rfl

/-! ### skipSymbol -/

@[simp] theorem skipSymbol_cmd : (b.skipSymbol).cmd = b.cmd := rfl
@[simp] theorem skipSymbol_sym : (b.skipSymbol).sym = b.sym := rfl
@[simp] theorem skipSymbol_acc : (b.skipSymbol).acc = b.acc := rfl
@[simp] theorem skipSymbol_phase : (b.skipSymbol).phase = b.phase := rfl
@[simp] theorem skipSymbol_rep : (b.skipSymbol).rep = b.rep := rfl
@[simp] theorem skipSymbol_cnt : (b.skipSymbol).cnt = b.cnt + 1 := rfl
@[simp] theorem skipSymbol_chip : (b.skipSymbol).chip = b.chip := rfl
@[simp] theorem skipSymbol_haveByte : (b.skipSymbol).haveByte = b.haveByte := rfl
@[simp] theorem skipSymbol_ecode : (b.skipSymbol).ecode = b.ecode := rfl
@[simp] theorem skipSymbol_err : (b.skipSymbol).err = b.err := rfl
@[simp] theorem skipSymbol_warn : (b.skipSymbol).warn = true := rfl
@[simp] theorem skipSymbol_cause : (b.skipSymbol).cause = b.cause := rfl
@[simp] theorem skipSymbol_einfo : (b.skipSymbol).einfo = b.einfo := rfl

/-! ### latchCommand -/

@[simp] theorem latchCommand_cmd (w : Word) : (b.latchCommand w).cmd = w := rfl
@[simp] theorem latchCommand_sym (w : Word) : (b.latchCommand w).sym = b.sym := rfl
@[simp] theorem latchCommand_acc (w : Word) : (b.latchCommand w).acc = 0 := rfl
@[simp] theorem latchCommand_phase (w : Word) : (b.latchCommand w).phase = b.phase := rfl
@[simp] theorem latchCommand_rep (w : Word) : (b.latchCommand w).rep = 0 := rfl
@[simp] theorem latchCommand_cnt (w : Word) : (b.latchCommand w).cnt = 0 := rfl
@[simp] theorem latchCommand_chip (w : Word) : (b.latchCommand w).chip = 0 := rfl
@[simp] theorem latchCommand_haveByte (w : Word) : (b.latchCommand w).haveByte = false := rfl
@[simp] theorem latchCommand_ecode (w : Word) : (b.latchCommand w).ecode = 0 := rfl
@[simp] theorem latchCommand_err (w : Word) : (b.latchCommand w).err = b.err := rfl
@[simp] theorem latchCommand_warn (w : Word) : (b.latchCommand w).warn = b.warn := rfl
@[simp] theorem latchCommand_cause (w : Word) : (b.latchCommand w).cause = b.cause := rfl
@[simp] theorem latchCommand_einfo (w : Word) : (b.latchCommand w).einfo = b.einfo := rfl

end Block

namespace State

variable (s : State)

/-! ### setBlock -/

@[simp] theorem setBlock_block (b : Block) : (s.setBlock b).block = b := rfl
@[simp] theorem setBlock_config (b : Block) : (s.setBlock b).config = s.config := rfl
@[simp] theorem setBlock_commands (b : Block) : (s.setBlock b).commands = s.commands := rfl
@[simp] theorem setBlock_input (b : Block) : (s.setBlock b).input = s.input := rfl
@[simp] theorem setBlock_output (b : Block) : (s.setBlock b).output = s.output := rfl
@[simp] theorem setBlock_sinkReady (b : Block) : (s.setBlock b).sinkReady = s.sinkReady := rfl
@[simp] theorem setBlock_schedule (b : Block) : (s.setBlock b).schedule = s.schedule := rfl

/-! ### record -/

@[simp] theorem record_block (r : OutRecord) : (s.record r).block = s.block := rfl
@[simp] theorem record_config (r : OutRecord) : (s.record r).config = s.config := rfl
@[simp] theorem record_commands (r : OutRecord) : (s.record r).commands = s.commands := rfl
@[simp] theorem record_input (r : OutRecord) : (s.record r).input = s.input := rfl
@[simp] theorem record_output (r : OutRecord) : (s.record r).output = s.output ++ [r] := rfl
@[simp] theorem record_sinkReady (r : OutRecord) : (s.record r).sinkReady = s.sinkReady := rfl
@[simp] theorem record_schedule (r : OutRecord) : (s.record r).schedule = s.schedule := rfl

/-! ### setInput -/

@[simp] theorem setInput_block (l : List Byte) : (s.setInput l).block = s.block := rfl
@[simp] theorem setInput_config (l : List Byte) : (s.setInput l).config = s.config := rfl
@[simp] theorem setInput_commands (l : List Byte) : (s.setInput l).commands = s.commands := rfl
@[simp] theorem setInput_input (l : List Byte) : (s.setInput l).input = l := rfl
@[simp] theorem setInput_output (l : List Byte) : (s.setInput l).output = s.output := rfl
@[simp] theorem setInput_sinkReady (l : List Byte) : (s.setInput l).sinkReady = s.sinkReady := rfl
@[simp] theorem setInput_schedule (l : List Byte) : (s.setInput l).schedule = s.schedule := rfl

/-! ### setCommands -/

@[simp] theorem setCommands_block (l : List Word) : (s.setCommands l).block = s.block := rfl
@[simp] theorem setCommands_config (l : List Word) : (s.setCommands l).config = s.config := rfl
@[simp] theorem setCommands_commands (l : List Word) : (s.setCommands l).commands = l := rfl
@[simp] theorem setCommands_input (l : List Word) : (s.setCommands l).input = s.input := rfl
@[simp] theorem setCommands_output (l : List Word) : (s.setCommands l).output = s.output := rfl
@[simp] theorem setCommands_sinkReady (l : List Word) : (s.setCommands l).sinkReady = s.sinkReady := rfl
@[simp] theorem setCommands_schedule (l : List Word) : (s.setCommands l).schedule = s.schedule := rfl

/-! ### setSchedule -/

@[simp] theorem setSchedule_block (l : List Turn) : (s.setSchedule l).block = s.block := rfl
@[simp] theorem setSchedule_config (l : List Turn) : (s.setSchedule l).config = s.config := rfl
@[simp] theorem setSchedule_commands (l : List Turn) : (s.setSchedule l).commands = s.commands := rfl
@[simp] theorem setSchedule_input (l : List Turn) : (s.setSchedule l).input = s.input := rfl
@[simp] theorem setSchedule_output (l : List Turn) : (s.setSchedule l).output = s.output := rfl
@[simp] theorem setSchedule_sinkReady (l : List Turn) : (s.setSchedule l).sinkReady = s.sinkReady := rfl
@[simp] theorem setSchedule_schedule (l : List Turn) : (s.setSchedule l).schedule = l := rfl

/-! ### setSink -/

@[simp] theorem setSink_block (r : Bool) : (s.setSink r).block = s.block := rfl
@[simp] theorem setSink_config (r : Bool) : (s.setSink r).config = s.config := rfl
@[simp] theorem setSink_commands (r : Bool) : (s.setSink r).commands = s.commands := rfl
@[simp] theorem setSink_input (r : Bool) : (s.setSink r).input = s.input := rfl
@[simp] theorem setSink_output (r : Bool) : (s.setSink r).output = s.output := rfl
@[simp] theorem setSink_sinkReady (r : Bool) : (s.setSink r).sinkReady = r := rfl
@[simp] theorem setSink_schedule (r : Bool) : (s.setSink r).schedule = s.schedule := rfl

end State

end Sys2Proof.Machine
end

