-- ==== Sys2Proof/Laws/Ops.lean ====
section
/-! SUPPORT. One spec lemma per shared operation: what `normalise()` does in each phase, what an exception writes, and
everything a Pop, an Emit or an End can do. -/

namespace Sys2Proof.Machine

variable {c : Config} {b : Block} {s t : State}

/-! ### normalise() -/

theorem advanceTimes_of_exit (h : advance c b = b) (n : Nat) : advanceTimes c n b = b := by
  induction n with
  | zero => rfl
  | succ n ih => rw [advanceTimes, h, ih]

theorem normalise_of_exit (h : advance c b = b) : normalise c b = b := advanceTimes_of_exit h 6

theorem normalise_of_one_pass {b' : Block} (h : advance c b = b') (h' : advance c b' = b') :
    normalise c b = b' := by
  rw [normalise, advanceTimes, h, advanceTimes_of_exit h']

theorem advance_setPhase_finish : advance c (b.setPhase .finish) = b.setPhase .finish := rfl

theorem normalise_idle (h : b.phase = .idle) : normalise c b = b :=
  normalise_of_exit (by rw [advance, h])

theorem normalise_finish (h : b.phase = .finish) : normalise c b = b :=
  normalise_of_exit (by rw [advance, h])

theorem normalise_dec (h : b.phase = .dec) :
    normalise c b = if b.cnt.toNat = 8 then b.setPhase .finish else b := by
  split
  · exact normalise_of_one_pass (by rw [advance, h]; exact if_pos ‹_›) advance_setPhase_finish
  · exact normalise_of_exit (by rw [advance, h]; exact if_neg ‹_›)

theorem normalise_enc (h : b.phase = .enc) :
    normalise c b =
      if b.haveByte = false ∧ b.cnt.toNat = (countField b.cmd).toNat then b.setPhase .finish else b := by
  split
  · exact normalise_of_one_pass (by rw [advance, h]; exact if_pos ‹_›) advance_setPhase_finish
  · exact normalise_of_exit (by rw [advance, h]; exact if_neg ‹_›)

theorem normalise_eDrain (h : b.phase = .eDrain) :
    normalise c b = if b.cnt.toNat = (countField b.cmd).toNat then b.setPhase .finish else b := by
  split
  · exact normalise_of_one_pass (by rw [advance, h]; exact if_pos ‹_›) advance_setPhase_finish
  · exact normalise_of_exit (by rw [advance, h]; exact if_neg ‹_›)

theorem repLen_eq (c : Config) : c.repLen = c.deadAirLen + 44 := rfl

theorem normalise_burst (h : b.phase = .burst) :
    normalise c b =
      if b.rep.toNat = c.repeatNum then b.setPhase .finish
      else if b.cnt.toNat = c.repLen then
        if (b.rep + 1).toNat = c.repeatNum then b.nextRepetition.setPhase .finish else b.nextRepetition
      else b := by
  split
  · exact normalise_of_one_pass (by rw [advance, h]; exact if_pos ‹_›) advance_setPhase_finish
  · rename_i hr
    split
    · rename_i hc
      have h0 : advance c b = b.nextRepetition := by
        rw [advance, h]; exact (if_neg hr).trans (if_pos hc)
      rw [normalise, advanceTimes, h0]
      split
      · rename_i hl
        have h1 : advance c b.nextRepetition = b.nextRepetition.setPhase .finish := by
          rw [advance, Block.nextRepetition_phase, h]; exact if_pos hl
        rw [advanceTimes, h1, advanceTimes_of_exit advance_setPhase_finish]
      · rename_i hl
        refine advanceTimes_of_exit ?_ _
        have h2 : ¬ b.nextRepetition.cnt.toNat = c.repLen := by simp [repLen_eq]
        rw [advance, Block.nextRepetition_phase, h]; exact (if_neg hl).trans (if_neg h2)
    · rename_i hc
      exact normalise_of_exit (by rw [advance, h]; exact (if_neg hr).trans (if_neg hc))

theorem normalise_fTrail (h : b.phase = .fTrail) :
    normalise c b = if b.cnt.toNat = 10 then b.setPhase .finish else b := by
  split
  · exact normalise_of_one_pass (by rw [advance, h]; exact if_pos ‹_›) advance_setPhase_finish
  · exact normalise_of_exit (by rw [advance, h]; exact if_neg ‹_›)

/-! The phases of `FRAME`, with the empty ones passed through. -/

/-- From `b` the loop reaches its exit at `b'` within `n` passes. -/
def Settles (c : Config) (n : Nat) (b b' : Block) : Prop := ∀ k, n ≤ k → advanceTimes c k b = b'

theorem Settles.of_exit (h : advance c b = b) (n : Nat) : Settles c n b b :=
  fun k _ => advanceTimes_of_exit h k

theorem Settles.pass {n : Nat} {b₁ b' : Block} (h : advance c b = b₁) (h' : Settles c n b₁ b') :
    Settles c (n + 1) b b' := by
  rintro (_ | k) hk
  · omega
  · rw [advanceTimes, h, h' k (by omega)]

theorem Settles.normalise {n : Nat} {b' : Block} (h : Settles c n b b') (hn : n ≤ 6) :
    normalise c b = b' := h 6 hn

theorem enterPhase_enterPhase (p q : Phase) : (b.enterPhase p).enterPhase q = b.enterPhase q := rfl

theorem settles_enter_fTrail (n : Nat) : Settles c n (b.enterPhase .fTrail) (b.enterPhase .fTrail) :=
  .of_exit rfl n

theorem settles_enter_fCsum (n : Nat) :
    Settles c (n + 1) (b.enterPhase .fCsum) (b.enterPhase (afterPayload (csumField b.cmd))) := by
  cases hc : csumField b.cmd
  · exact .pass (b₁ := b.enterPhase .fTrail)
      (by rw [advance, Block.enterPhase_phase]; exact if_pos (.inl hc)) (settles_enter_fTrail _)
  · refine .of_exit ?_ _
    rw [advance, Block.enterPhase_phase]
    exact if_neg (by simp [hc])

theorem settles_enter_fPay (hb : b.haveByte = false) (n : Nat) :
    Settles c (n + 2) (b.enterPhase .fPay)
      (b.enterPhase (afterHeader (paylenField b.cmd) (csumField b.cmd))) := by
  by_cases hp : paylenField b.cmd = 0
  · simp only [afterHeader, hp, ne_eq, not_true_eq_false, if_false]
    exact .pass (b₁ := b.enterPhase .fCsum)
      (by rw [advance, Block.enterPhase_phase]; exact if_pos (by simp [hp, hb])) (settles_enter_fCsum _)
  · simp only [afterHeader, ne_eq, hp, not_false_eq_true, if_true]
    refine .of_exit ?_ _
    rw [advance, Block.enterPhase_phase]
    refine if_neg fun h => hp ?_
    exact BitVec.eq_of_toNat_eq (by simpa using h.2.symm)

theorem settles_enter_fHdr (hb : b.haveByte = false) (n : Nat) :
    Settles c (n + 3) (b.enterPhase .fHdr)
      (b.enterPhase (afterPreamble (paylenField b.cmd) (hdrField b.cmd) (csumField b.cmd))) := by
  cases hh : hdrField b.cmd
  · exact .pass (b₁ := b.enterPhase .fPay)
      (by rw [advance, Block.enterPhase_phase]; exact if_pos (.inl hh)) (settles_enter_fPay hb _)
  · refine .of_exit ?_ _
    rw [advance, Block.enterPhase_phase]
    exact if_neg (by simp [hh, Config.hdrLen])

theorem settles_enter_fPre (hb : b.haveByte = false) (n : Nat) :
    Settles c (n + 4) (b.enterPhase .fPre)
      (b.enterPhase
        (afterSilence (prelenField b.cmd) (paylenField b.cmd) (hdrField b.cmd) (csumField b.cmd))) := by
  by_cases hp : prelenField b.cmd = 0
  · simp only [afterSilence, hp, ne_eq, not_true_eq_false, if_false]
    exact .pass (b₁ := b.enterPhase .fHdr)
      (by rw [advance, Block.enterPhase_phase]; exact if_pos (by simp [hp, hb]))
      (settles_enter_fHdr hb _)
  · simp only [afterSilence, ne_eq, hp, not_false_eq_true, if_true]
    refine .of_exit ?_ _
    rw [advance, Block.enterPhase_phase]
    refine if_neg fun h => hp ?_
    exact BitVec.eq_of_toNat_eq (by simpa using h.2.symm)

theorem normalise_fLead (h : b.phase = .fLead) (hb : b.haveByte = false) :
    normalise c b =
      if b.cnt.toNat = 10 then
        b.enterPhase
          (afterSilence (prelenField b.cmd) (paylenField b.cmd) (hdrField b.cmd) (csumField b.cmd))
      else b := by
  split
  · exact (Settles.pass (b₁ := b.enterPhase .fPre) (by rw [advance, h]; exact if_pos ‹_›)
      (settles_enter_fPre hb 0)).normalise (by decide)
  · exact normalise_of_exit (by rw [advance, h]; exact if_neg ‹_›)

theorem normalise_fPre (h : b.phase = .fPre) (hb : b.haveByte = false) :
    normalise c b =
      if b.cnt.toNat = (prelenField b.cmd).toNat then
        b.enterPhase (afterPreamble (paylenField b.cmd) (hdrField b.cmd) (csumField b.cmd))
      else b := by
  split
  · exact (Settles.pass (b₁ := b.enterPhase .fHdr) (by rw [advance, h]; exact if_pos ⟨hb, ‹_›⟩)
      (settles_enter_fHdr hb 0)).normalise (by decide)
  · exact normalise_of_exit (by rw [advance, h]; exact if_neg fun hc => absurd hc.2 ‹_›)

theorem normalise_fHdr (h : b.phase = .fHdr) (hb : b.haveByte = false) :
    normalise c b =
      if hdrField b.cmd = false ∨ b.cnt.toNat = 4 then
        b.enterPhase (afterHeader (paylenField b.cmd) (csumField b.cmd))
      else b := by
  split
  · exact (Settles.pass (b₁ := b.enterPhase .fPay) (by rw [advance, h]; exact if_pos ‹_›)
      (settles_enter_fPay hb 0)).normalise (by decide)
  · exact normalise_of_exit (by rw [advance, h]; exact if_neg ‹_›)

theorem normalise_fPay (h : b.phase = .fPay) (hb : b.haveByte = false) :
    normalise c b =
      if b.cnt.toNat = (paylenField b.cmd).toNat then b.enterPhase (afterPayload (csumField b.cmd))
      else b := by
  split
  · exact (Settles.pass (b₁ := b.enterPhase .fCsum) (by rw [advance, h]; exact if_pos ⟨hb, ‹_›⟩)
      (settles_enter_fCsum 0)).normalise (by decide)
  · exact normalise_of_exit (by rw [advance, h]; exact if_neg fun hc => absurd hc.2 ‹_›)

theorem normalise_fCsum (h : b.phase = .fCsum) :
    normalise c b =
      if csumField b.cmd = false ∨ b.cnt.toNat = 1 then b.enterPhase .fTrail else b := by
  split
  · exact (Settles.pass (b₁ := b.enterPhase .fTrail) (by rw [advance, h]; exact if_pos ‹_›)
      (settles_enter_fTrail 0)).normalise (by decide)
  · exact normalise_of_exit (by rw [advance, h]; exact if_neg ‹_›)

/-- While a byte is held the input phases are not complete (R133). -/
theorem normalise_have (h : b.phase = .enc ∨ b.phase = .fPre ∨ b.phase = .fPay)
    (hb : b.haveByte = true) : normalise c b = b := by
  refine normalise_of_exit ?_
  obtain h | h | h := h <;> rw [advance, h] <;> exact if_neg (by simp [hb])

/-- A pass only writes `PHASE`, `REP` and `CNT` (R133). -/
theorem advance_frame (c : Config) (b : Block) :
    advance c b =
      { b with phase := (advance c b).phase, rep := (advance c b).rep, cnt := (advance c b).cnt } := by
  unfold advance
  repeat' split
  all_goals rfl

theorem advanceTimes_keeps (n : Nat) (b : Block) :
    (advanceTimes c n b).cmd = b.cmd ∧ (advanceTimes c n b).sym = b.sym ∧
      (advanceTimes c n b).acc = b.acc ∧ (advanceTimes c n b).chip = b.chip ∧
      (advanceTimes c n b).haveByte = b.haveByte ∧ (advanceTimes c n b).ecode = b.ecode ∧
      (advanceTimes c n b).err = b.err ∧ (advanceTimes c n b).warn = b.warn ∧
      (advanceTimes c n b).cause = b.cause ∧ (advanceTimes c n b).einfo = b.einfo := by
  induction n generalizing b with
  | zero => simp [advanceTimes]
  | succ n ih => rw [advanceTimes, advance_frame]; exact ih _

@[simp] theorem normalise_cmd : (normalise c b).cmd = b.cmd := (advanceTimes_keeps 6 b).1
@[simp] theorem normalise_sym : (normalise c b).sym = b.sym := (advanceTimes_keeps 6 b).2.1
@[simp] theorem normalise_acc : (normalise c b).acc = b.acc := (advanceTimes_keeps 6 b).2.2.1
@[simp] theorem normalise_chip : (normalise c b).chip = b.chip := (advanceTimes_keeps 6 b).2.2.2.1
@[simp] theorem normalise_haveByte : (normalise c b).haveByte = b.haveByte :=
  (advanceTimes_keeps 6 b).2.2.2.2.1
@[simp] theorem normalise_ecode : (normalise c b).ecode = b.ecode :=
  (advanceTimes_keeps 6 b).2.2.2.2.2.1
@[simp] theorem normalise_err : (normalise c b).err = b.err := (advanceTimes_keeps 6 b).2.2.2.2.2.2.1
@[simp] theorem normalise_warn : (normalise c b).warn = b.warn :=
  (advanceTimes_keeps 6 b).2.2.2.2.2.2.2.1
@[simp] theorem normalise_cause : (normalise c b).cause = b.cause :=
  (advanceTimes_keeps 6 b).2.2.2.2.2.2.2.2.1
@[simp] theorem normalise_einfo : (normalise c b).einfo = b.einfo :=
  (advanceTimes_keeps 6 b).2.2.2.2.2.2.2.2.2

/-! ### Exceptions -/

/-- Everything `raise` writes (R236). -/
theorem raiseException_eq (e : Cause) (info : Word) (b : Block) :
    raiseException e info b =
      { b with
        err := true
        cause := if b.err then b.cause else e.code
        einfo := if b.err then b.einfo else info
        ecode := e.code } := by
  unfold raiseException
  cases h : b.err <;> simp

/-! ### The steps -/

/-- All a Pop can do (R134): a hold, or one byte taken and used. -/
theorem pop_cases {use : Byte → Block → Block} (h : pop use s = .next t) :
    (s.input = [] ∧ t = s) ∨
      ∃ v rest, s.input = v :: rest ∧
        t = { s with input := rest, block := normalise s.config (use v s.block) } := by
  unfold pop at h
  split at h <;> cases h
  · exact .inl ⟨‹_›, rfl⟩
  · exact .inr ⟨_, _, ‹_›, rfl⟩

/-- All an Emit can do (R135): a hold, or one DATA beat. -/
theorem emit_cases {v : Byte} {after : Block → Block} (h : emit v after s = .next t) :
    (s.sinkReady = false ∧ t = s) ∨
      (s.sinkReady = true ∧
        t = { s with
              output := s.output ++ [.data v]
              block := normalise s.config (after s.block) }) := by
  unfold emit at h
  split at h <;> cases h
  · exact .inr ⟨‹_›, rfl⟩
  · exact .inl ⟨Bool.eq_false_iff.mpr ‹_›, rfl⟩

/-- All an Emit of an element that may have no value can do: as an Emit, or a fault. -/
theorem emitOr_cases {f : Fault} {element : Option Byte} {after : Block → Block}
    (h : emitOr f element after s = .next t) :
    (s.sinkReady = false ∧ t = s) ∨
      ∃ v, element = some v ∧ s.sinkReady = true ∧
        t = { s with
              output := s.output ++ [.data v]
              block := normalise s.config (after s.block) } := by
  unfold emitOr at h
  split at h
  · split at h <;> cases h
    exact .inr ⟨_, rfl, ‹_›, rfl⟩
  · cases h
    exact .inl ⟨Bool.eq_false_iff.mpr ‹_›, rfl⟩

/-- All End can do (R136): a hold, or the END beat. -/
theorem endStep_cases (h : endStep s = .next t) :
    (s.sinkReady = false ∧ t = s) ∨
      (s.sinkReady = true ∧
        t = { s with
              output := s.output ++ [.done s.block.ecode]
              block := { s.block with phase := .idle } }) := by
  unfold endStep at h
  split at h <;> cases h
  · exact .inr ⟨‹_›, rfl⟩
  · exact .inl ⟨Bool.eq_false_iff.mpr ‹_›, rfl⟩

theorem pop_cons {use : Byte → Block → Block} {v : Byte} {rest : List Byte} (h : s.input = v :: rest) :
    pop use s = .next { s with input := rest, block := normalise s.config (use v s.block) } := by
  rw [pop, h]; rfl

theorem emit_ready {v : Byte} {after : Block → Block} (h : s.sinkReady = true) :
    emit v after s = .next
      { s with output := s.output ++ [.data v], block := normalise s.config (after s.block) } := by
  rw [emit, if_pos h]; rfl

theorem emitOr_ready {f : Fault} {v : Byte} {after : Block → Block} (h : s.sinkReady = true) :
    emitOr f (some v) after s = .next
      { s with output := s.output ++ [.data v], block := normalise s.config (after s.block) } := by
  rw [emitOr, if_pos h]; rfl

end Sys2Proof.Machine
end

