-- ==== Sys2Proof/Laws/PerInstr.lean ====
section
/-! SUPPORT. The family `OpcodeField`: the word of every command carries the opcode of its row of opcode_table.json in
bits 31:28 (30_encoding.md R91, R96). -/

namespace Sys2Proof.Laws.OpcodeField

/-- The opcode of a command's row. -/
def opcode : Instr → Nat
  | .decomp _ => 1
  | .enc _ => 2
  | .burst _ => 3
  | .frame _ _ _ _ => 4

/-- Bits 31:28 of the command's word are its opcode. -/
def Statement (i : Instr) : Prop := (opcField (encode i)).toNat = opcode i

theorem decomp (code : Byte) : Statement (.decomp code) := by
  have := code.isLt
  rw [Statement, opcField_toNat, encode_decomp_toNat, opcode]
  omega

theorem enc (count : Half) : Statement (.enc count) := by
  have := count.isLt
  rw [Statement, opcField_toNat, encode_enc_toNat, opcode]
  omega

theorem burst (code : Byte) : Statement (.burst code) := by
  have := code.isLt
  rw [Statement, opcField_toNat, encode_burst_toNat, opcode]
  omega

theorem frame (prelen paylen : Byte) (hdr csum : Bool) : Statement (.frame prelen paylen hdr csum) := by
  have := prelen.isLt
  have := paylen.isLt
  have := hdr.toNat_le
  have := csum.toNat_le
  rw [Statement, opcField_toNat, encode_frame_toNat, opcode]
  omega

end Sys2Proof.Laws.OpcodeField
end

