-- ==== Sys2Proof/Laws/Run.lean ====
section
/-! SUPPORT. The step on the block's turn, and runs of many steps. -/

namespace Sys2Proof.Machine

variable {s t u : State}

/-- On the block's turn the step is the block's, the turn taken off the schedule. -/
theorem step_of_blockMoves (h : s.BlockMoves) :
    step s = blockStep { s with schedule := s.schedule.tail } := by
  rcases s with ⟨b, c, co, i, o, r, sched⟩
  cases sched with
  | nil => rfl
  | cons u rest => obtain rfl : u = .block := h; rfl

/-- On another agent's turn the step is the environment's. -/
theorem step_of_environment {turn : Turn} {rest : List Turn} (h : s.schedule = turn :: rest)
    (hb : turn ≠ .block) : step s = .next (environmentStep turn { s with schedule := rest }) := by
  unfold step nextTurn
  rw [h]
  cases turn with
  | block => exact absurd rfl hb
  | command _ | byte _ | reset | sink _ => rfl

/-- The step of any state: the block's turn, or another agent's. -/
theorem step_cases (h : step s = .next t) :
    (s.BlockMoves ∧ blockStep { s with schedule := s.schedule.tail } = .next t) ∨
      ∃ turn rest, s.schedule = turn :: rest ∧ turn ≠ .block ∧
        t = environmentStep turn { s with schedule := rest } := by
  by_cases hb : s.BlockMoves
  · exact .inl ⟨hb, step_of_blockMoves hb ▸ h⟩
  · right
    cases hs : s.schedule with
    | nil => exact absurd (by simp [State.BlockMoves, nextTurn, hs]) hb
    | cons turn rest =>
      have hne : turn ≠ .block := fun e => hb (by simp [State.BlockMoves, nextTurn, hs, e])
      rw [step_of_environment hs hne] at h
      cases h
      exact ⟨turn, rest, rfl, hne, rfl⟩

theorem core_run_succ (M : Host.Core) {n : Nat} {s t : M.State} (h : M.step s = .next t) :
    M.run (n + 1) s = M.run n t := by
  simp only [Host.Core.run, h]

theorem core_run_inv (M : Host.Core) {n : Nat} {s u : M.State} (h : M.run (n + 1) s = .next u) :
    ∃ t, M.step s = .next t ∧ M.run n t = .next u := by
  simp only [Host.Core.run] at h
  cases hs : M.step s with
  | next s' => rw [hs] at h; exact ⟨s', rfl, h⟩
  | fault _ => rw [hs] at h; cases h
  | refused _ => rw [hs] at h; cases h

/-- A run of one step more, from its front. -/
theorem run_succ {n : Nat} (h : step s = .next t) :
    Host.Core.run core (n + 1) s = Host.Core.run core n t := core_run_succ core h

/-- The first step of a run that ends in a state. -/
theorem run_inv {n : Nat} (h : Host.Core.run core (n + 1) s = .next u) :
    ∃ t, step s = .next t ∧ Host.Core.run core n t = .next u := core_run_inv core h

/-- Two runs one after the other. -/
theorem run_add {m n : Nat} (h : Host.Core.run core m s = .next t) :
    Host.Core.run core (m + n) s = Host.Core.run core n t := by
  induction m generalizing s with
  | zero => cases h; rw [Nat.zero_add]
  | succ m ih =>
    obtain ⟨s', hs, hr⟩ := run_inv h
    rw [Nat.succ_add, run_succ hs, ih hr]

/-- What every step keeps, every run keeps. -/
theorem run_keeps {P : State → Prop} (hstep : ∀ s t, P s → step s = .next t → P t) {n : Nat}
    (hs : P s) (h : Host.Core.run core n s = .next t) : P t := by
  induction n generalizing s with
  | zero => cases h; exact hs
  | succ n ih =>
    obtain ⟨s', h₁, h₂⟩ := run_inv h
    exact ih (hstep _ _ hs h₁) h₂

end Sys2Proof.Machine
end

