-- ==== Sys2Proof/Laws/Steps.lean ====
section
/-! SUPPORT. Once and for all, everything a step of a command and a turn of the block can do: a hold, an Accept, a Pop,
an Emit or an End (40_command_execution.md R130). Every claim about all steps rests on these two case lemmas. -/

namespace Sys2Proof.Machine

variable {s t : State} {i : Instr}

/-- The phase in which a command begins, before `normalise()` (R131). -/
def firstPhase : Instr → Phase
  | .decomp _ => .dec
  | .enc _ => .enc
  | .burst _ => .burst
  | .frame _ _ _ _ => .fLead

/-- What a Pop does with its byte, by phase, before `normalise()` (R134). -/
def popEffect (c : Config) (v : Byte) (b : Block) : Block :=
  match b.phase with
  | .enc => takeSymbol c v b
  | .eDrain => b.countUp
  | .idle | .dec | .burst | .fLead | .fPre | .fHdr | .fPay | .fCsum | .fTrail | .finish => b.latchByte v

/-- What an Emit does to the registers, by phase, before `normalise()` (R135). -/
def emitEffect (b : Block) : Block :=
  match b.phase with
  | .enc => b.nextChip
  | .fPre => b.releaseByte
  | .fPay => b.releasePayloadByte
  | .idle | .dec | .eDrain | .burst | .fLead | .fHdr | .fCsum | .fTrail | .finish => b.countUp

/-- A step that moved something: one of Accept, Pop, Emit, End (R131, R134 to R136). -/
inductive Moved (s : State) : State → Prop
  /-- Accept of a legal word. -/
  | accept (i : Instr) (hp : s.block.phase = .idle) :
    Moved s
      { s with block := normalise s.config ((s.block.latchCommand (encode i)).setPhase (firstPhase i)) }
  /-- A Pop. -/
  | pop (v : Byte) (rest : List Byte) (hr : s.block.inReady = true) (hi : s.input = v :: rest) :
    Moved s { s with input := rest, block := normalise s.config (popEffect s.config v s.block) }
  /-- An Emit. -/
  | emit (v : Byte) (hv : s.block.outValid = true) (hp : s.block.phase ≠ .finish)
      (hs : s.sinkReady = true) (hd : s.block.outData s.config = some v) :
    Moved s
      { s with
        output := s.output ++ [.data v]
        block := normalise s.config (emitEffect s.block) }
  /-- End. -/
  | done (hp : s.block.phase = .finish) (hs : s.sinkReady = true) :
    Moved s
      { s with
        output := s.output ++ [.done s.block.ecode]
        block := { s.block with phase := .idle } }

theorem pop_moved {use : Byte → Block → Block} (hr : s.block.inReady = true)
    (hu : ∀ v, popEffect s.config v s.block = use v s.block) (h : pop use s = .next t) :
    t = s ∧ s.input = [] ∨ Moved s t := by
  obtain ⟨hi, rfl⟩ | ⟨v, rest, hi, rfl⟩ := pop_cases h
  · exact .inl ⟨rfl, hi⟩
  · exact .inr (hu v ▸ .pop v rest hr hi)

theorem emit_moved {v : Byte} {after : Block → Block} (hv : s.block.outValid = true)
    (hp : s.block.phase ≠ .finish) (hd : s.block.outData s.config = some v)
    (ha : emitEffect s.block = after s.block) (h : emit v after s = .next t) :
    t = s ∧ s.sinkReady = false ∨ Moved s t := by
  obtain ⟨hs, rfl⟩ | ⟨hs, rfl⟩ := emit_cases h
  · exact .inl ⟨rfl, hs⟩
  · exact .inr (ha ▸ .emit v hv hp hs hd)

theorem emitOr_moved {f : Fault} {element : Option Byte} {after : Block → Block}
    (hv : s.block.outValid = true) (hp : s.block.phase ≠ .finish)
    (hd : s.block.outData s.config = element) (ha : emitEffect s.block = after s.block)
    (h : emitOr f element after s = .next t) : t = s ∧ s.sinkReady = false ∨ Moved s t := by
  obtain ⟨hs, rfl⟩ | ⟨v, rfl, hs, rfl⟩ := emitOr_cases h
  · exact .inl ⟨rfl, hs⟩
  · exact .inr (ha ▸ .emit v hv hp hs hd)

theorem endStep_moved (hp : s.block.phase = .finish) (h : endStep s = .next t) :
    t = s ∧ s.sinkReady = false ∨ Moved s t := by
  obtain ⟨hs, rfl⟩ | ⟨hs, rfl⟩ := endStep_cases h
  · exact .inl ⟨rfl, hs⟩
  · exact .inr (.done hp hs)

/-- The block has something to wait for: no byte where it pops, or no ready sink where it emits (R266). -/
def Waits (s : State) : Prop :=
  (s.block.inReady = true ∧ s.input = []) ∨ (s.block.outValid = true ∧ s.sinkReady = false) ∨
    (s.block.phase = .eDrain ∧ s.block.haveByte = true)

/-- Everything a step of the command in flight can do (R132, R134 to R136). -/
theorem exec_inFlight_cases (hf : inFlight s.block = some i) (h : exec i s = .next t) :
    t = s ∧ Waits s ∨ Moved s t := by
  have wi (hr : s.block.inReady = true) :
      t = s ∧ s.input = [] ∨ Moved s t → t = s ∧ Waits s ∨ Moved s t :=
    Or.imp_left (And.imp_right fun hi => .inl ⟨hr, hi⟩)
  have wo (hv : s.block.outValid = true) :
      t = s ∧ s.sinkReady = false ∨ Moved s t → t = s ∧ Waits s ∨ Moved s t :=
    Or.imp_left (And.imp_right fun hs => .inr (.inl ⟨hv, hs⟩))
  cases hp : s.block.phase <;> simp only [inFlight, hp] at hf
  all_goals cases hf
  case dec =>
    simp only [exec, execDecomp, hp] at h
    have hv : s.block.outValid = true := by simp [Block.outValid, hp]
    exact wo hv (emitOr_moved hv (by simp [hp]) (by simp [Block.outData, hp]) (by simp [emitEffect, hp]) h)
  case enc =>
    simp only [exec, execEnc, hp] at h
    cases hb : s.block.haveByte <;> simp only [hb, if_true] at h
    · have hr : s.block.inReady = true := by simp [Block.inReady, hp, hb]
      exact wi hr (pop_moved hr (by simp [popEffect, hp]) h)
    · have hv : s.block.outValid = true := by simp [Block.outValid, hp, hb]
      exact wo hv
        (emitOr_moved hv (by simp [hp]) (by simp [Block.outData, hp, hb]) (by simp [emitEffect, hp]) h)
  case eDrain =>
    simp only [exec, execEnc, hp] at h
    cases hb : s.block.haveByte <;> simp only [hb, if_true] at h
    · have hr : s.block.inReady = true := by simp [Block.inReady, hp, hb]
      exact wi hr (pop_moved hr (by simp [popEffect, hp]) h)
    · cases h
      exact .inl ⟨rfl, .inr (.inr ⟨hp, hb⟩)⟩
  case burst =>
    simp only [exec, execBurst, hp] at h
    have hv : s.block.outValid = true := by simp [Block.outValid, hp]
    exact wo hv (emitOr_moved hv (by simp [hp]) (by simp [Block.outData, hp]) (by simp [emitEffect, hp]) h)
  case fPre | fPay =>
    simp only [exec, execFrame, hp] at h
    cases hb : s.block.haveByte <;> simp only [hb, if_true] at h
    · have hr : s.block.inReady = true := by simp [Block.inReady, hp, hb]
      exact wi hr (pop_moved hr (by simp [popEffect, hp]) h)
    · have hv : s.block.outValid = true := by simp [Block.outValid, hp, hb]
      exact wo hv
        (emit_moved hv (by simp [hp]) (by simp [Block.outData, hp, hb]) (by simp [emitEffect, hp]) h)
  all_goals
    simp only [exec, execFrame, hp] at h
    have hv : s.block.outValid = true := by simp [Block.outValid, hp]
    exact wo hv (emit_moved hv (by simp [hp]) (by simp [Block.outData, hp]) (by simp [emitEffect, hp]) h)

/-- Accept of a legal command, whatever the command (R131). -/
theorem exec_idle (hp : s.block.phase = .idle) (i : Instr) :
    exec i s = .next
      { s with block := normalise s.config ((s.block.latchCommand (encode i)).setPhase (firstPhase i)) } := by
  cases i <;> simp only [exec, execDecomp, execEnc, execBurst, execFrame, hp] <;> rfl

/-- End, whatever the command (R136). -/
theorem exec_finish (hp : s.block.phase = .finish) (i : Instr) : exec i s = endStep s := by
  cases i <;> simp only [exec, execDecomp, execEnc, execBurst, execFrame, hp]

/-- A command that is not the one in flight waits (R139): the phases of one command are none of another's. -/
theorem exec_other {j : Instr} (hf : inFlight s.block = some j) (i : Instr) :
    exec i s = exec j s ∨ exec i s = .next s := by
  cases hp : s.block.phase <;> simp only [inFlight, hp, reduceCtorEq] at hf
  all_goals
    cases hf
    cases i <;> simp [exec, execDecomp, execEnc, execBurst, execFrame, hp]

/-- Everything a step of a command can do, whatever is in flight. -/
theorem exec_cases (h : exec i s = .next t) : t = s ∨ Moved s t := by
  cases hf : inFlight s.block with
  | some j =>
    obtain e | e := exec_other hf i
    · exact (exec_inFlight_cases hf (e ▸ h)).imp_left And.left
    · rw [e] at h; cases h; exact .inl rfl
  | none =>
    by_cases hp : s.block.phase = .idle
    · rw [exec_idle hp i] at h; cases h; exact .inr (.accept i hp)
    · have hp : s.block.phase = .finish := by
        revert hf hp; rcases s.block with ⟨_, _, _, p⟩; cases p <;> simp [inFlight]
      rw [exec_finish hp i] at h
      exact (endStep_moved hp h).imp_left And.left

/-- Everything a turn of the block can do (R130, R137): a wait, a move of the command in flight, or an Accept. -/
theorem blockStep_cases (h : blockStep s = .next t) :
    (t = s ∧ (Waits s ∨ (s.block.phase = .idle ∧ s.commands = []))) ∨
      (s.block.phase ≠ .idle ∧ Moved s t) ∨
      ∃ w rest, s.block.phase = .idle ∧ s.commands = w :: rest ∧
        ((∃ i, decode w = .ok i ∧ t =
            { s with
              commands := rest
              block := normalise s.config ((s.block.latchCommand (encode i)).setPhase (firstPhase i)) }) ∨
          ((∃ r, decode w = .error r) ∧ t =
            { s with
              commands := rest
              block := normalise s.config
                ((raiseException .illegalCmd w (s.block.latchCommand w)).setPhase .finish) })) := by
  cases hf : inFlight s.block with
  | some j =>
    simp only [blockStep, hf] at h
    have hp : s.block.phase ≠ .idle := by intro hp; simp [inFlight, hp] at hf
    exact (exec_inFlight_cases hf h).elim (fun e => .inl ⟨e.1, .inl e.2⟩) fun m => .inr (.inl ⟨hp, m⟩)
  | none =>
    simp only [blockStep, hf] at h
    by_cases hp : s.block.phase = .idle
    · rw [if_pos hp] at h
      cases hc : s.commands with
      | nil => simp only [takeCommand, hc] at h; cases h; exact .inl ⟨rfl, .inr ⟨hp, rfl⟩⟩
      | cons w rest =>
        simp only [takeCommand, hc] at h
        refine .inr (.inr ⟨w, rest, hp, rfl, ?_⟩)
        cases hd : decode w with
        | ok i =>
          simp only [hd] at h
          rw [exec_idle (by exact hp) i] at h
          cases h; exact .inl ⟨i, rfl, rfl⟩
        | error r => simp only [hd] at h; cases h; exact .inr ⟨⟨r, rfl⟩, rfl⟩
    · rw [if_neg hp] at h
      have hp' : s.block.phase = .finish := by
        revert hf hp; rcases s.block with ⟨_, _, _, p⟩; cases p <;> simp [inFlight]
      exact (endStep_moved hp' h).elim
        (fun e => .inl ⟨e.1, .inl (.inr (.inl ⟨by simp [Block.outValid, hp'], e.2⟩))⟩)
        fun m => .inr (.inl ⟨hp, m⟩)

end Sys2Proof.Machine
end

