-- ==== Sys2Proof/Tests/Slice0.lean ====
section
/-! SUPPORT. Tests on fixed values, whose expected results are written out from the spec (95_test_vectors.md unless a
comment names another place), and one witness for the hypotheses of every statement that has any. -/

namespace Sys2Proof.Tests

open Sys2Proof.Machine

/-! ### Small states -/

/-- The state a step goes to, if it goes to one. -/
def after : Result → Option State
  | .next s => some s
  | .fault _ => none
  | .refused _ => none

/-- Right after reset, with words and bytes offered. -/
def offered (words : List Word) (bytes : List Byte) : State :=
  { State.reset with commands := words, input := bytes }

/-- The command w in flight: phase, `CNT`, held byte, and what stands in `IN`. -/
def busy (w : Word) (p : Phase) (cnt : Half) (held : Option Byte) (bytes : List Byte) : State :=
  { State.reset with
    block :=
      { Block.reset with
        cmd := w, phase := p, cnt := cnt, haveByte := held.isSome, sym := held.getD 0 }
    input := bytes }

/-- The same on a block built to skip invalid symbols. -/
def skipping (s : State) : State := { s with config := { Config.hardware with skipBadSymbol := true } }

/-- What the checks of a step read: phase, `CNT`, and the last entry of `OUT`. -/
def glance (s : State) : Phase × Half × Option OutRecord := (s.block.phase, s.block.cnt, s.output.getLast?)

/-! ### Well-formedness: one ill-formed term for each check (30_encoding.md R97, R108) -/

theorem test_legal_refuses_opcode0 : legal 0x00000000#32 = false := by decide
theorem test_legal_refuses_opcode5 : legal 0x50000000#32 = false := by decide
theorem test_legal_refuses_opcode15 : legal 0xFFFFFFFF#32 = false := by decide
theorem test_legal_refuses_decomp_reserved : legal 0x18000000#32 = false := by decide
theorem test_legal_refuses_enc_reserved : legal 0x20010000#32 = false := by decide
theorem test_legal_refuses_burst_reserved : legal 0x30000100#32 = false := by decide
theorem test_legal_refuses_frame_reserved : legal 0x40040000#32 = false := by decide
theorem test_legal_takes_the_four_rows :
    legal 0x100000A5#32 ∧ legal 0x2000FFFF#32 ∧ legal 0x300000FF#32 ∧ legal 0x4003FFFF#32 := by decide

theorem test_fits_refuses_codes :
    (AsmCommand.decomp 256).fits = false ∧ (AsmCommand.burst 256).fits = false := by decide
theorem test_fits_refuses_count : (AsmCommand.enc 65536).fits = false := by decide
theorem test_fits_refuses_frame :
    (AsmCommand.frame 256 0 0 0).fits = false ∧ (AsmCommand.frame 0 256 0 0).fits = false ∧
      (AsmCommand.frame 0 0 2 0).fits = false ∧ (AsmCommand.frame 0 0 0 2).fits = false := by decide
theorem test_fits_refuses_pseudo :
    (AsmCommand.frameRaw 256 0).fits = false ∧ (AsmCommand.frameRaw 0 256).fits = false ∧
      (AsmCommand.frameL 256 0).fits = false ∧ (AsmCommand.frameL 0 256).fits = false ∧
      (AsmCommand.frameC 256 0).fits = false ∧ (AsmCommand.frameC 0 256).fits = false ∧
      (AsmCommand.frameLC 256 0).fits = false ∧ (AsmCommand.frameLC 0 256).fits = false := by decide
theorem test_fits_refuses_word : (AsmCommand.word 0x100000000).fits = false := by decide
theorem test_fits_refuses_input_byte : (AsmLine.input [0, 256]).fits = false := by decide
theorem test_assemble_refuses_what_does_not_fit : assemble (.enc 65536) = none := by decide

/-! ### Decoding: words written out bit by bit from R92 to R96 -/

theorem test_decode_decomp :
    decode 0b0001_0000_0000_0000_0000_0000_1010_0101#32 = .ok (.decomp 0xA5) := by decide
theorem test_decode_enc :
    decode 0b0010_0000_0000_0000_0000_0010_0000_0001#32 = .ok (.enc 0x0201) := by decide
theorem test_decode_burst :
    decode 0b0011_0000_0000_0000_0000_0000_0011_1100#32 = .ok (.burst 0x3C) := by decide
theorem test_decode_frame :
    decode 0b0100_0000_0000_0010_0000_0001_0000_0010#32 = .ok (.frame 1 2 false true) := by decide
theorem test_decode_frame_header :
    decode 0b0100_0000_0000_0001_1111_1111_0000_0000#32 = .ok (.frame 255 0 true false) := by decide
theorem test_encode_frame : encode (.frame 2 3 true true) = 0x40030203#32 := by decide
theorem test_decodeTableWord : decodeTableWord 32 0x300000FF = some (.burst 0xFF) := by decide
theorem test_decodeTableWord_refuses : decodeTableWord 32 0x30000100 = none := by decide

/-! ### The assembler's text (R108 to R110) -/

theorem test_readLine_command :
    Assembler.readLine "        FRAME.LC  2, 3          ; 0x40030203".toList =
      some (some (.command (.frameLC 2 3))) := by decide
theorem test_readLine_input :
    Assembler.readLine "        .in     0xAA, 0xAA, 1".toList =
      some (some (.input [0xAA, 0xAA, 1])) := by decide
theorem test_readLine_refuses : Assembler.readLine "DECOMP".toList = none := by decide
theorem test_program_turns :
    Assembler.program [.input [0x05], .command (.enc 1), .reset] =
      some [.byte 0x05, .command 0x20000001#32, .reset] := by decide

/-! ### One step -/

/-- S3: the bits of 0xA5 come out most significant first; beat 2 is a 1. -/
theorem test_decomp_emits_bit_two :
    (after (exec (.decomp 0xA5) (busy 0x100000A5 .dec 2 none []))).map glance =
      some (.dec, 3, some (.data 1)) := by decide
/-- The eighth Emit leaves `DEC`. -/
theorem test_decomp_last_bit :
    (after (exec (.decomp 0x3C) (busy 0x1000003C .dec 7 none []))).map glance =
      some (.finish, 8, some (.data 0)) := by decide

/-- Trace T1, step 5 (`CHIP` 2 of a one): DATA 01, `CHIP` 3. -/
theorem test_enc_third_chip :
    (after (exec (.enc 2)
        { busy 0x20000002 .enc 0 (some 1) [0] with
          block := { (busy 0x20000002 .enc 0 (some 1) [0]).block with chip := 2 } })).map
      (fun t => (t.block.chip, glance t)) = some (3, .enc, 0, some (.data 1)) := by decide
/-- Vector E6: the third symbol, 0x07, is invalid: `EINFO = 0x00000207`. -/
theorem test_enc_invalid_symbol :
    (after (exec (.enc 5) (busy 0x20000005 .enc 2 none [7, 1, 1]))).map
      (fun t => (t.block.phase, t.block.cnt, t.block.einfo, t.input)) =
      some (.eDrain, 3, 0x00000207, [1, 1]) := by decide

/-- B3: position 43 of a repetition is 1, the last chip of the first marker. -/
theorem test_burst_position_43 :
    (after (exec (.burst 0xA5) (busy 0x300000A5 .burst 43 none []))).map glance =
      some (.burst, 44, some (.data 1)) := by decide
/-- B3: the last chip of the burst, emitted with `REP = 19`, `CNT = 83`; P1: then `REP = 20`, `CNT = 0`. -/
theorem test_burst_last_chip :
    (after (exec (.burst 0xA5)
        { busy 0x300000A5 .burst 83 none [] with
          block := { (busy 0x300000A5 .burst 83 none []).block with rep := 19 } })).map
      (fun t => (t.block.rep, glance t)) = some (20, .finish, 0, some (.data 1)) := by decide

/-- Trace T2, step 21: `ACC` wraps, 0x80 + 0x81 = 0x01 modulo 256, and the payload is complete. -/
theorem test_frame_checksum_wraps :
    (after (exec (.frame 1 2 true true)
        { busy 0x40030102 .fPay 1 (some 0x81) [] with
          block := { (busy 0x40030102 .fPay 1 (some 0x81) []).block with acc := 0x80 } })).map
      (fun t => (t.block.acc, t.block.haveByte, glance t)) =
      some (0x01, false, .fCsum, 0, some (.data 0x81)) := by decide
/-- R203: the second byte of the header is `PAYLEN`; trace T2, step 15. -/
theorem test_frame_header_second_byte :
    (after (exec (.frame 1 2 true true) (busy 0x40030102 .fHdr 1 none []))).map glance =
      some (.fHdr, 2, some (.data 2)) := by decide

/-- X1: an illegal word, its Accept. -/
theorem test_illegal_word :
    (after (step (offered [0x00000000] []))).map
      (fun t => (t.block.phase, t.block.err, t.block.cause, t.block.ecode, t.output)) =
      some (.finish, true, 2, 2, []) := by decide
/-- X5: reset in `F_PAY` with a byte held: all registers at their reset values, no END beat. -/
theorem test_reset_drops_the_frame :
    (after (step { busy 0x40000203 .fPay 1 (some 0x55) [] with schedule := [.reset] })).map
      (fun t => (t.block, t.output)) = some (Block.reset, [.reset]) := by decide
/-- X6: a word offered during a burst waits. -/
theorem test_word_waits_during_burst :
    (after (step { busy 0x30000000 .burst 0 none [] with commands := [0x10000000] })).map
      (fun t => t.commands) = some [0x10000000] := by decide

/-! ### Witnesses: the hypotheses of the statements can be met -/

theorem witness_EncodeOfDecodedIsTheWord : decode 0x4003FFFF#32 = .ok (.frame 255 255 true true) := by decide

theorem witness_AssembledWordIsTheFormula :
    255 ≤ 255 ∧ 65535 ≤ 65535 ∧ (1 : Nat) ≤ 1 ∧
      assemble (.frame 255 255 1 1) = some 0x4003FFFF#32 := by decide

theorem witness_FrameLengthIsFixed :
    (List.replicate 255 (0xFF : Byte)).length ≤ 255 ∧ ([] : List Byte).length ≤ 255 :=
  ⟨List.length_replicate.le, by decide⟩

theorem witness_HistoriesSplitIntoPackets : ((0x00 : Byte) = 0x00) ∧ ((0x02 : Byte) ≠ 0x00) := by decide

theorem witness_ResetFromAnyState :
    { busy 0x40000203 .fPay 1 (some 0x55) [] with schedule := [.reset, .byte 1] }.schedule =
      Turn.reset :: [.byte 1] := by decide

theorem witness_HostAndSinkTurns :
    { State.reset with schedule := [.command 0x20000001] }.schedule = Turn.command 0x20000001 :: [] ∧
      { State.reset with schedule := [.byte 0xFF] }.schedule = Turn.byte 0xFF :: [] ∧
      { State.reset with schedule := [.sink false] }.schedule = Turn.sink false :: [] := by decide

/-- A word of each command, offered to an idle block, its turn scheduled or not. -/
theorem witness_StepRunsDecodedCommand :
    let s := offered [0x100000A5, 0x00000000] []
    let u := { offered [0x40030102] [0x55] with schedule := [.block] }
    (s.BlockMoves ∧ s.block.phase = .idle ∧ s.commands = 0x100000A5 :: [0x00000000] ∧
      decode 0x100000A5#32 = .ok (.decomp 0xA5)) ∧
    (u.BlockMoves ∧ u.block.phase = .idle ∧ u.commands = 0x40030102 :: [] ∧
      decode 0x40030102#32 = .ok (.frame 1 2 true true)) := by decide

theorem witness_StepRunsCommandInFlight :
    let s := { busy 0x20000002 .eDrain 1 none [0] with commands := [0x10000000] }
    s.BlockMoves ∧ inFlight s.block = some (.enc 2) := by decide

theorem witness_FetchedWordRunsNext : decode 0x300000FF#32 = .ok (.burst 0xFF) := by decide

theorem witness_EndEmitsCompletionCode :
    let s := busy 0x20000001 .finish 1 none []
    s.BlockMoves ∧ s.block.phase = .finish ∧ s.sinkReady = true := by decide

/-- A witness for each of the three waits. -/
theorem witness_BlockHoldsWhileItWaits :
    let s := offered [] [1]
    let u := busy 0x20000002 .enc 1 none []
    let v := { busy 0x20000002 .enc 1 (some 1) [] with sinkReady := false }
    (s.BlockMoves ∧ s.block.cmdReady = true ∧ s.commands = []) ∧
    (u.BlockMoves ∧ u.block.inReady = true ∧ u.input = []) ∧
    (v.BlockMoves ∧ v.block.outValid = true ∧ v.sinkReady = false) := by decide

/-- The first exception since reset, and a later one. -/
theorem witness_IllegalWordRaisesIllegalCmd :
    let s := offered [0x30000100] []
    let u := { s with block := { s.block with err := true, cause := 1, einfo := 0x207 } }
    (s.BlockMoves ∧ s.block.phase = .idle ∧ s.commands = 0x30000100 :: [] ∧ legal 0x30000100 = false) ∧
    (u.BlockMoves ∧ u.block.phase = .idle ∧ u.commands = 0x30000100 :: [] ∧ u.block.err = true) := by decide

/-- Accept of each command, and of those with nothing to do. -/
theorem witness_AcceptStartsTheCommand :
    State.reset.block.phase = .idle ∧
      (after (exec (.decomp 0) State.reset)).map (·.block.phase) = some .dec ∧
      (after (exec (.enc 0) State.reset)).map (·.block.phase) = some .finish ∧
      (after (exec (.enc 1) State.reset)).map (·.block.phase) = some .enc ∧
      (after (exec (.burst 0) State.reset)).map (·.block.phase) = some .burst ∧
      (after (exec (.burst 0) { State.reset with config := ⟨0, 0, false⟩ })).map (·.block.phase) =
        some .finish ∧
      (after (exec (.frame 0 0 false false) State.reset)).map (·.block.phase) = some .fLead := by decide

theorem witness_DecompEmitsOneBit :
    let s := busy 0x100000A5 .dec 0 none []
    let u := busy 0x100000A5 .dec 7 none []
    (s.block.phase = .dec ∧ s.block.cnt.toNat < 8 ∧ s.sinkReady = true) ∧
      (u.block.phase = .dec ∧ u.block.cnt.toNat < 8 ∧ u.sinkReady = true) := by decide

theorem witness_DecompPacketIsDecompose :
    State.reset.block.phase = .idle ∧ State.reset.sinkReady = true ∧ State.reset.schedule = [] := by decide

theorem witness_EncPopLatchesValidSymbol :
    let s := busy 0x20000002 .enc 0 none [0x01, 0x00]
    s.block.phase = .enc ∧ s.block.haveByte = false ∧ s.input = 0x01 :: [0x00] ∧
      ((0x01 : Byte) = 0x00 ∨ (0x01 : Byte) = 0x01) := by decide

/-- In the middle of the input, and at its last symbol. -/
theorem witness_EncPopRaisesOnInvalidSymbol :
    let s := busy 0x20000005 .enc 2 none [0x07, 1, 1]
    let u := busy 0x20000001 .enc 0 none [0x02]
    (s.block.phase = .enc ∧ s.block.haveByte = false ∧ s.input = 0x07 :: [1, 1] ∧ 1 < (0x07 : Byte).toNat ∧
      s.block.cnt.toNat < (countField s.block.cmd).toNat ∧ s.config.skipBadSymbol = false) ∧
    (u.block.phase = .enc ∧ u.block.haveByte = false ∧ u.input = 0x02 :: [] ∧ 1 < (0x02 : Byte).toNat ∧
      u.block.cnt.toNat < (countField u.block.cmd).toNat ∧ u.config.skipBadSymbol = false) := by decide

theorem witness_EncPopSkipsInvalidSymbol :
    let s := skipping (busy 0x20000003 .enc 1 none [0x09, 0x00])
    s.block.phase = .enc ∧ s.block.haveByte = false ∧ s.input = 0x09 :: [0x00] ∧ 1 < (0x09 : Byte).toNat ∧
      s.block.cnt.toNat < (countField s.block.cmd).toNat ∧ s.config.skipBadSymbol = true := by decide

theorem witness_EncEmitsOneChip :
    let s := busy 0x20000002 .enc 0 (some 0x00) []
    let u := { busy 0x20000002 .enc 1 (some 0x01) [] with
                block := { (busy 0x20000002 .enc 1 (some 0x01) []).block with chip := 3 } }
    (s.block.phase = .enc ∧ s.block.haveByte = true ∧ s.sinkReady = true ∧ s.block.sym = 0x00 ∧
      s.block.cnt.toNat < (countField s.block.cmd).toNat) ∧
    (u.block.phase = .enc ∧ u.block.haveByte = true ∧ u.sinkReady = true ∧ u.block.sym = 0x01 ∧
      u.block.cnt.toNat < (countField u.block.cmd).toNat) := by decide

theorem witness_EncDrainDiscardsOneByte :
    let s := busy 0x20000005 .eDrain 4 none [0xFF]
    s.block.phase = .eDrain ∧ s.block.haveByte = false ∧ s.input = 0xFF :: [] ∧
      s.block.cnt.toNat < (countField s.block.cmd).toNat := by decide

/-- E4, with a surplus byte; and the empty input of E1. -/
theorem witness_EncPacketIsEncodeBits :
    let s := offered [] [0x01, 0x00, 0x42]
    (s.block.phase = .idle ∧ s.sinkReady = true ∧ s.schedule = [] ∧ s.input = [0x01, 0x00] ++ [0x42] ∧
      [(0x01 : Byte), 0x00].length = (2 : Half).toNat ∧ ∀ v ∈ [(0x01 : Byte), 0x00], v = 0x00 ∨ v = 0x01) ∧
    (s.input = [] ++ [0x01, 0x00, 0x42] ∧ ([] : List Byte).length = (0 : Half).toNat) := by decide

/-- E6, and E7, where nothing valid comes first and nothing is left to drain. -/
theorem witness_EncPacketIsErrorOnInvalidSymbol :
    let s := offered [] [0x01, 0x00, 0x07, 0x01, 0x01]
    let u := offered [] [0x02]
    (s.block.phase = .idle ∧ s.sinkReady = true ∧ s.schedule = [] ∧ s.config.skipBadSymbol = false ∧
      s.input = [0x01, 0x00] ++ 0x07 :: [0x01, 0x01] ++ [] ∧
      [(0x01 : Byte), 0x00].length + 1 + [(0x01 : Byte), 0x01].length = (5 : Half).toNat ∧
      (∀ v ∈ [(0x01 : Byte), 0x00], v = 0x00 ∨ v = 0x01) ∧ 1 < (0x07 : Byte).toNat) ∧
    (u.input = [] ++ 0x02 :: [] ++ [] ∧ ([] : List Byte).length + 1 + ([] : List Byte).length = (1 : Half).toNat ∧
      1 < (0x02 : Byte).toNat) := by decide

/-- E10. -/
theorem witness_EncPacketSkipsInvalidSymbols :
    let s := skipping (offered [] [0x01, 0x09, 0x00])
    s.block.phase = .idle ∧ s.sinkReady = true ∧ s.schedule = [] ∧ s.config.skipBadSymbol = true ∧
      s.input = [0x01, 0x09, 0x00] ++ [] ∧ [(0x01 : Byte), 0x09, 0x00].length = (3 : Half).toNat ∧
      [0x01, 0x00] = [(0x01 : Byte), 0x09, 0x00].filter (fun v => decide (v.toNat ≤ 1)) := by decide

/-- The first chip of dead air, and the last chip of a repetition. -/
theorem witness_BurstEmitsOneChip :
    let s := busy 0x300000A5 .burst 0 none []
    let u := busy 0x300000A5 .burst 83 none []
    (s.config.Admissible ∧ s.block.phase = .burst ∧ s.sinkReady = true ∧
      s.block.rep.toNat < s.config.repeatNum ∧ s.block.cnt.toNat < s.config.repLen ∧
      (Reference.repetition s.config (codeField s.block.cmd))[s.block.cnt.toNat]? = some 0) ∧
    (u.block.phase = .burst ∧ u.block.rep.toNat < u.config.repeatNum ∧ u.block.cnt.toNat < u.config.repLen ∧
      (Reference.repetition u.config (codeField u.block.cmd))[u.block.cnt.toNat]? = some 1) := by decide

/-- This hardware, and the corners of the admissible ranges. -/
theorem witness_BurstPacketIsBuildPayload :
    State.reset.config.Admissible ∧ Config.Admissible ⟨0, 0, false⟩ ∧ Config.Admissible ⟨65535, 65491, true⟩ ∧
      State.reset.block.phase = .idle ∧ State.reset.sinkReady = true ∧ State.reset.schedule = [] := by decide

theorem witness_FrameEmitsSilence :
    let s := busy 0x40000000 .fLead 9 none []
    let u := busy 0x40000000 .fTrail 0 none []
    (s.sinkReady = true ∧ s.block.haveByte = false ∧ s.block.cnt.toNat < 10 ∧ s.block.phase = .fLead) ∧
      (u.sinkReady = true ∧ u.block.haveByte = false ∧ u.block.cnt.toNat < 10 ∧
        u.block.phase = .fTrail) := by decide

theorem witness_FramePopsOneByte :
    let s := busy 0x40000203 .fPre 1 none [0xAA]
    let u := busy 0x40000203 .fPay 2 none [0x03]
    (s.block.phase = .fPre ∧ s.block.haveByte = false ∧ s.input = 0xAA :: []) ∧
      (u.block.phase = .fPay ∧ u.block.haveByte = false ∧ u.input = 0x03 :: []) := by decide

theorem witness_FrameEmitsPreambleByte :
    let s := busy 0x40000203 .fPre 1 (some 0xAA) []
    s.block.phase = .fPre ∧ s.block.haveByte = true ∧ s.sinkReady = true ∧
      s.block.cnt.toNat < (prelenField s.block.cmd).toNat := by decide

theorem witness_FrameEmitsHeaderByte :
    let s := busy 0x40010203 .fHdr 3 none []
    s.block.phase = .fHdr ∧ s.block.haveByte = false ∧ s.sinkReady = true ∧ hdrField s.block.cmd = true ∧
      [0x00, paylenField s.block.cmd, 0x00, paylenField s.block.cmd][s.block.cnt.toNat]? = some 0x03 := by decide

theorem witness_FrameEmitsPayloadByte :
    let s := busy 0x40000203 .fPay 2 (some 0x03) []
    s.block.phase = .fPay ∧ s.block.haveByte = true ∧ s.sinkReady = true ∧
      s.block.cnt.toNat < (paylenField s.block.cmd).toNat := by decide

theorem witness_FrameEmitsChecksum :
    let s := busy 0x40020203 .fCsum 0 none []
    s.block.phase = .fCsum ∧ s.block.cnt = 0 ∧ s.sinkReady = true ∧ csumField s.block.cmd = true := by decide

/-- F4, and F5, the empty frame. -/
theorem witness_FramePacketIsBuildFrame :
    let s := offered [] [0xAA, 0xAA, 0x01, 0x02, 0x03]
    s.block.phase = .idle ∧ s.sinkReady = true ∧ s.schedule = [] ∧
      (s.input = [0xAA, 0xAA] ++ [0x01, 0x02, 0x03] ++ [] ∧
        [(0xAA : Byte), 0xAA].length = (2 : Byte).toNat ∧ [(0x01 : Byte), 0x02, 0x03].length = (3 : Byte).toNat) ∧
      (s.input = [] ++ [] ++ s.input ∧ ([] : List Byte).length = (0 : Byte).toNat) := by decide

theorem witness_EveryStepKeepsSoundness :
    (busy 0x20000002 .enc 1 (some 1) []).Sound ∧
      (after (step (busy 0x20000002 .enc 1 (some 1) []))).isSome = true := by decide

theorem witness_SoundStatesNeverStop : (busy 0x300000A5 .burst 83 none []).Sound := by decide

theorem witness_ExactlyOneHandshakeIsUp : (busy 0x40000203 .fPay 2 none []).Sound := by decide

/-- A turn of the block with a transfer on each channel, and with none: the hypotheses of every statement about turns of
the block. -/
theorem witness_BeatsCrossOnValidAndReady :
    (after (step (offered [0x20000001] []))).map (·.commands) = some [] ∧
      (after (step (busy 0x20000001 .enc 0 none [1]))).map (·.input) = some [] ∧
      (after (step (busy 0x20000001 .enc 0 (some 1) []))).map (·.output) = some [.data 0] ∧
      after (step (offered [] [])) = some (offered [] []) ∧
      (offered [0x20000001] []).BlockMoves ∧ (busy 0x20000001 .enc 0 none [1]).BlockMoves ∧
      (busy 0x20000001 .enc 0 (some 1) []).BlockMoves ∧ (offered [] []).BlockMoves := by decide

theorem witness_PhasesFollowTheirOrder :
    (offered [0x40000000] []).BlockMoves ∧
      (after (step (offered [0x40000000] []))).map (·.block.phase) = some .fLead := by decide

theorem witness_OneCommandInFlight :
    let s := { busy 0x30000000 .burst 0 none [] with commands := [0x10000000] }
    s.block.phase ≠ .idle ∧ (after (step s)).isSome = true ∧ s.BlockMoves := by decide

/-- One step for each of the five registers. -/
theorem witness_RegistersChangeOnlyInTheirSteps :
    let used := { Block.reset with acc := 1, rep := 20, chip := 2 }
    (after (step { offered [0x20000001] [] with block := used })).map
        (fun t => (t.block.cmd, t.block.acc, t.block.rep, t.block.chip)) = some (0x20000001, 0, 0, 0) ∧
      (after (step (busy 0x20000001 .enc 0 none [1]))).map (·.block.sym) = some 1 ∧
      (after (step (busy 0x40000002 .fPay 0 (some 5) []))).map (·.block.acc) = some 5 ∧
      (after (step (busy 0x30000000 .burst 83 none []))).map (·.block.rep) = some 1 ∧
      (after (step (busy 0x20000001 .enc 0 (some 1) []))).map (·.block.chip) = some 1 := by decide

/-- A first capture by each exception, and one kept. -/
theorem witness_FirstExceptionIsKept :
    (after (step (offered [0] []))).map (fun t => (t.block.err, t.block.cause)) = some (true, 2) ∧
      (after (step (busy 0x20000001 .enc 0 none [5]))).map (fun t => (t.block.err, t.block.cause)) =
        some (true, 1) ∧
      (after (step { offered [0xFFFFFFFF] [] with
          block := { Block.reset with err := true, cause := 1, einfo := 5 } })).map
        (fun t => (t.block.err, t.block.cause, t.block.einfo, t.block.ecode)) = some (true, 1, 5, 2) := by decide

theorem witness_WarnIsSetOnlyBySkipping :
    let s := skipping (busy 0x20000002 .enc 0 none [5])
    s.BlockMoves ∧ s.block.warn = false ∧ (after (step s)).map (·.block.warn) = some true := by decide

theorem witness_OnlyEncRaises :
    (∀ count, Instr.burst 0 ≠ .enc count) ∧
      (after (exec (.burst 0) (busy 0x30000000 .burst 0 none []))).isSome = true := by
  exact ⟨fun _ => by simp, by decide⟩

/-- A step of a command for each channel, and one for none. -/
theorem witness_CommandsTouchOneChannelAtATime :
    (after (exec (.enc 1) (busy 0x20000001 .enc 0 none [1]))).map (·.input) = some [] ∧
      (after (exec (.enc 1) (busy 0x20000001 .enc 0 (some 1) []))).map (·.output) = some [.data 0] ∧
      (after (exec (.enc 1) (busy 0x20000001 .finish 1 none []))).map (·.output) = some [.done 0] ∧
      (after (exec (.decomp 1) (busy 0x20000001 .enc 0 none [1]))).map (·.input) = some [1] := by decide

theorem witness_ConfigurationNeverChanges :
    after (Host.Core.run core 2 (offered [] [])) = some (offered [] []) := by decide

theorem witness_BusyBlockReturnsToIdle :
    let s := busy 0x20000002 .enc 1 (some 1) (List.replicate 65535 0)
    s.Sound ∧ s.schedule = [] ∧ s.sinkReady = true ∧ 65535 ≤ s.input.length := by
  refine ⟨?_, rfl, rfl, ?_⟩
  · exact (by decide : (busy 0x20000002 .enc 1 (some 1) []).Sound)
  · exact List.length_replicate.ge

/-- A command that takes all the bytes offered, one that leaves one, and one that takes none. -/
theorem witness_EveryCommandConsumesItsNeedAndEnds :
    let s := offered [] [0xAA, 0x05]
    s.config.Admissible ∧ s.block.phase = .idle ∧ s.sinkReady = true ∧ s.schedule = [] ∧
      need (.frame 1 1 false true) ≤ s.input.length ∧ need (.enc 1) ≤ s.input.length ∧
      need (.burst 0xFF) ≤ s.input.length := by decide

/-- The same word and byte: offered at once with a ready sink, and late with a sink that first is not. -/
theorem witness_TimingChangesNoValue :
    let s := offered [0x20000001] [1]
    let u := { offered [] [] with
                sinkReady := false
                schedule := [.block, .byte 1, .command 0x20000001, .sink true] }
    s.block = u.block ∧ s.config = u.config ∧ s.output = u.output ∧ s.allCommands = u.allCommands ∧
      s.allInput = u.allInput ∧ s.NoReset ∧ u.NoReset ∧
      (after (Host.Core.run core 3 s)).map (·.output) = some [.data 0] ∧
      (after (Host.Core.run core 7 u)).map (·.output) = some [.data 0] := by decide

end Sys2Proof.Tests
end

section
/-! PROOFS. Every step keeps the invariant of 10_state.md R40 (O44), and the reset values of R39 (O13).

The effect of a step on the registers, before `normalise()`, leaves them in `Block.PreSound`: all of R40, but `CNT` and
`REP` may have come to their limits. Every pass of the loop of `normalise()` keeps that, and at the exit of the loop no
limit is reached. -/

namespace Sys2Proof

/-! ### The fields of a command's word (R92 to R94) -/

@[simp] theorem codeField_encode_decomp (code : Byte) : codeField (encode (.decomp code)) = code := by
  refine BitVec.eq_of_toNat_eq ?_
  rw [codeField_toNat, encode_decomp_toNat]
  omega

@[simp] theorem countField_encode_enc (count : Half) : countField (encode (.enc count)) = count := by
  refine BitVec.eq_of_toNat_eq ?_
  rw [countField_toNat, encode_enc_toNat]
  omega

@[simp] theorem codeField_encode_burst (code : Byte) : codeField (encode (.burst code)) = code := by
  refine BitVec.eq_of_toNat_eq ?_
  rw [codeField_toNat, encode_burst_toNat]
  omega

section Frame

variable (prelen paylen : Byte) (hdr csum : Bool)

@[simp] theorem prelenField_encode_frame :
    prelenField (encode (.frame prelen paylen hdr csum)) = prelen := by
  refine BitVec.eq_of_toNat_eq ?_
  rw [prelenField_toNat, encode_frame_toNat]
  omega

@[simp] theorem paylenField_encode_frame :
    paylenField (encode (.frame prelen paylen hdr csum)) = paylen := by
  refine BitVec.eq_of_toNat_eq ?_
  rw [paylenField_toNat, encode_frame_toNat]
  omega

@[simp] theorem hdrField_encode_frame :
    hdrField (encode (.frame prelen paylen hdr csum)) = hdr := by
  have hbit : (encode (.frame prelen paylen hdr csum)).toNat / 2 ^ 16 % 2 = hdr.toNat := by
    have := hdr.toNat_le
    rw [encode_frame_toNat]
    omega
  rw [hdrField_eq, hbit]
  cases hdr <;> rfl

@[simp] theorem csumField_encode_frame :
    csumField (encode (.frame prelen paylen hdr csum)) = csum := by
  have hbit : (encode (.frame prelen paylen hdr csum)).toNat / 2 ^ 17 % 2 = csum.toNat := by
    have := hdr.toNat_le
    have := csum.toNat_le
    rw [encode_frame_toNat]
    omega
  rw [csumField_eq, hbit]
  cases csum <;> rfl

end Frame

end Sys2Proof

namespace Sys2Proof.Machine

variable {c : Config} {b : Block} {s t : State}

/-- Outside `ENC`, `F_PRE` and `F_PAY` no byte is held (R40 (a)). -/
theorem Block.HavePhase.not_held (h : b.HavePhase)
    (hp : ¬(b.phase = .enc ∨ b.phase = .fPre ∨ b.phase = .fPay)) : b.haveByte = false :=
  Bool.eq_false_iff.mpr fun hb => hp (h hb)

/-- Outside `E_DRAIN`, `END` and `IDLE` no exception marks the command (R40 (d)). -/
theorem Block.EcodePhase.ecode_zero (h : b.EcodePhase)
    (hp : ¬(b.phase = .eDrain ∨ b.phase = .finish ∨ b.phase = .idle)) : b.ecode = 0 :=
  Decidable.byContradiction fun he => hp (h he)

/-! ### The exit of normalise() (R133) -/

/-- A bound on the moves the loop of `normalise()` still makes: the phases left to pass through, and in `BURST` one
more where a repetition is complete. -/
def movesLeft (c : Config) (b : Block) : Nat :=
  match b.phase with
  | .idle | .finish => 0
  | .dec | .enc | .eDrain | .fTrail => 1
  | .burst => if b.cnt.toNat = c.repLen then 2 else 1
  | .fCsum => 2
  | .fPay => 3
  | .fHdr => 4
  | .fPre => 5
  | .fLead => 6

theorem movesLeft_le (c : Config) (b : Block) : movesLeft c b ≤ 6 := by
  unfold movesLeft
  repeat' split
  all_goals decide

/-- Everything a pass of the loop can do (R133). Each move leaves fewer moves. -/
inductive Pass (c : Config) (b : Block) : Block → Prop
  /-- The exit: neither limit is reached. -/
  | exit (hcnt : b.haveByte = false → ∀ n ∈ limit c b, b.cnt.toNat ≠ n)
      (hrep : b.phase = .burst → b.rep.toNat ≠ c.repeatNum) : Pass c b b
  /-- The command is complete. -/
  | finish (hheld : b.HavePhase → b.haveByte = false)
      (hlt : movesLeft c (b.setPhase .finish) < movesLeft c b) : Pass c b (b.setPhase .finish)
  /-- A part of a frame is complete: the next phase of the same command. -/
  | enter (p : Phase) (hheld : b.HavePhase → b.haveByte = false) (hcode : b.EcodePhase → b.ecode = 0)
      (hp : p ≠ .burst ∧ p ≠ .enc) (hcmd : inFlight (b.enterPhase p) = inFlight b)
      (hlt : movesLeft c (b.enterPhase p) < movesLeft c b) : Pass c b (b.enterPhase p)
  /-- A repetition of a burst is complete. -/
  | repetition (hp : b.phase = .burst) (hrep : b.rep.toNat ≠ c.repeatNum)
      (hlt : movesLeft c b.nextRepetition < movesLeft c b) : Pass c b b.nextRepetition

theorem pass_advance (c : Config) (b : Block) : Pass c b (advance c b) := by
  cases hp : b.phase <;> simp only [advance, hp]
  case idle | finish => exact .exit (by simp [limit, hp]) (by simp [hp])
  case burst =>
    split
    · refine .finish (fun h => h.not_held (by simp [hp])) ?_
      simp only [movesLeft, hp, Block.setPhase_phase]
      split <;> decide
    · split
      · exact .repetition hp ‹_› (by simp [movesLeft, repLen_eq, *])
      · exact .exit (by simp [limit, *]) (by simp [*])
  case enc =>
    split
    · exact .finish (fun _ => And.left ‹_›) (by simp [movesLeft, hp])
    · exact .exit (by simp_all [limit]) (by simp [hp])
  case dec | eDrain | fTrail =>
    split
    · exact .finish (fun h => h.not_held (by simp [hp])) (by simp [movesLeft, hp])
    · exact .exit (by simp_all [limit]) (by simp [hp])
  case fPre | fPay =>
    split
    · exact .enter _ (fun _ => And.left ‹_›) (fun h => h.ecode_zero (by simp [hp])) (by decide)
        (by simp [inFlight, hp]) (by simp [movesLeft, hp])
    · exact .exit (by simp_all [limit]) (by simp [hp])
  case fLead | fHdr | fCsum =>
    split
    · exact .enter _ (fun h => h.not_held (by simp [hp])) (fun h => h.ecode_zero (by simp [hp]))
        (by decide) (by simp [inFlight, hp]) (by simp [movesLeft, hp])
    · exact .exit (by simp_all [limit]) (by simp [hp])

/-- A pass that changes nothing is the exit of the loop. -/
theorem Pass.limits_of_eq {b' : Block} (h : Pass c b b') (he : b' = b) :
    (b.haveByte = false → ∀ n ∈ limit c b, b.cnt.toNat ≠ n) ∧
      (b.phase = .burst → b.rep.toNat ≠ c.repeatNum) := by
  cases h with
  | exit hcnt hrep => exact ⟨hcnt, hrep⟩
  | finish _ hlt | enter _ _ _ _ _ hlt | repetition _ _ hlt => exact absurd hlt (by simp [he])

theorem Pass.eq_or_movesLeft_lt {b' : Block} (h : Pass c b b') :
    b' = b ∨ movesLeft c b' < movesLeft c b := by
  cases h with
  | exit => exact .inl rfl
  | finish _ hlt | enter _ _ _ _ _ hlt | repetition _ _ hlt => exact .inr hlt

theorem advance_advanceTimes {n : Nat} (hn : movesLeft c b ≤ n) :
    advance c (advanceTimes c n b) = advanceTimes c n b := by
  induction n generalizing b with
  | zero => exact (pass_advance c b).eq_or_movesLeft_lt.resolve_right (by omega)
  | succ n ih =>
    obtain hexit | hlt := (pass_advance c b).eq_or_movesLeft_lt
    · rw [advanceTimes_of_exit hexit, hexit]
    · exact ih (by omega)

/-- `normalise()` ends at the exit of its loop, from every state. -/
theorem advance_normalise (c : Config) (b : Block) : advance c (normalise c b) = normalise c b :=
  advance_advanceTimes (movesLeft_le c b)

/-! ### What holds before normalise() -/

/-- A counter below a bound does not pass it by one count, wrapped or not. -/
theorem toNat_add_one_le {x : Half} {n : Nat} (h : x.toNat < n) : (x + 1).toNat ≤ n :=
  (Nat.mod_le _ _).trans h

/-- R40 (b) as it stands before `normalise()`: `CNT` may have come to its phase's limit where no byte is held, and
`REP` to `REPEAT_NUM`. -/
def Block.WithinLimit (c : Config) (b : Block) : Prop :=
  (∀ n ∈ limit c b, b.cnt.toNat ≤ n ∧ (b.haveByte = true → b.cnt.toNat < n)) ∧
    (b.phase = .burst → b.rep.toNat ≤ c.repeatNum)

/-- `Block.Sound` as it stands before `normalise()`; every pass of the loop keeps it. -/
structure Block.PreSound (c : Config) (b : Block) : Prop where
  havePhase : b.HavePhase
  withinLimit : b.WithinLimit c
  symbolLatch : b.SymbolLatch
  ecodePhase : b.EcodePhase
  firstCapture : b.FirstCapture
  codeKnown : b.CodeKnown
  warnConfigured : b.WarnConfigured c
  commandLatched : b.CommandLatched

/-- At the exit of the loop the limits are not reached. -/
theorem Block.WithinLimit.belowLimit_of_exit (h : b.WithinLimit c) (hexit : advance c b = b) :
    b.BelowLimit c := by
  obtain ⟨hcnt, hrep⟩ := h
  obtain ⟨hcnt_ne, hrep_ne⟩ := (pass_advance c b).limits_of_eq hexit
  refine ⟨fun n hn => ?_, fun hp => lt_of_le_of_ne (hrep hp) (hrep_ne hp)⟩
  obtain ⟨hle, hheld⟩ := hcnt n hn
  cases hb : b.haveByte with
  | true => exact hheld hb
  | false => exact lt_of_le_of_ne hle (hcnt_ne hb n hn)

/-- With `CNT = 0` and no byte held no limit is passed, but for `REP`. -/
theorem Block.withinLimit_of_cnt_zero (hcnt : b.cnt = 0) (hb : b.haveByte = false)
    (hrep : b.phase = .burst → b.rep.toNat ≤ c.repeatNum) : b.WithinLimit c :=
  ⟨fun n _ => ⟨by simp [hcnt], by simp [hb]⟩, hrep⟩

namespace Block.PreSound

/-- What holds before `normalise()` is soundness at the exit of its loop. -/
theorem sound_of_exit (h : b.PreSound c) (hexit : advance c b = b) : b.Sound c :=
  ⟨h.havePhase, h.withinLimit.belowLimit_of_exit hexit, h.symbolLatch, h.ecodePhase, h.firstCapture,
    h.codeKnown, h.warnConfigured, h.commandLatched⟩

theorem setPhase_finish (h : b.PreSound c) (hb : b.haveByte = false) :
    (b.setPhase .finish).PreSound c where
  havePhase := by simp [hb]
  withinLimit := ⟨nofun, nofun⟩
  symbolLatch := nofun
  ecodePhase _ := .inr (.inl rfl)
  firstCapture := h.firstCapture
  codeKnown := h.codeKnown
  warnConfigured := h.warnConfigured
  commandLatched := nofun

theorem enterPhase {p : Phase} (h : b.PreSound c) (hb : b.haveByte = false) (hcode : b.ecode = 0)
    (hp : p ≠ .burst ∧ p ≠ .enc) (hcmd : inFlight (b.enterPhase p) = inFlight b) :
    (b.enterPhase p).PreSound c where
  havePhase := by simp [hb]
  withinLimit := Block.withinLimit_of_cnt_zero rfl hb fun e => absurd e hp.1
  symbolLatch e := absurd e hp.2
  ecodePhase := by simp [hcode]
  firstCapture := h.firstCapture
  codeKnown := h.codeKnown
  warnConfigured := h.warnConfigured
  commandLatched i hi := h.commandLatched i (hcmd ▸ hi)

theorem nextRepetition (h : b.PreSound c) (hp : b.phase = .burst) (hrep : b.rep.toNat ≠ c.repeatNum) :
    b.nextRepetition.PreSound c where
  havePhase := h.havePhase
  withinLimit := by
    obtain ⟨-, hle⟩ := h.withinLimit
    exact Block.withinLimit_of_cnt_zero rfl (h.havePhase.not_held (by simp [hp]))
      fun _ => toNat_add_one_le (lt_of_le_of_ne (hle hp) hrep)
  symbolLatch := h.symbolLatch
  ecodePhase := h.ecodePhase
  firstCapture := h.firstCapture
  codeKnown := h.codeKnown
  warnConfigured := h.warnConfigured
  commandLatched := h.commandLatched

/-- Every pass of the loop keeps what holds before it. -/
theorem pass {b' : Block} (h : b.PreSound c) (hpass : Pass c b b') : b'.PreSound c := by
  cases hpass with
  | exit => exact h
  | finish hheld => exact h.setPhase_finish (hheld h.havePhase)
  | enter p hheld hcode hp hcmd => exact h.enterPhase (hheld h.havePhase) (hcode h.ecodePhase) hp hcmd
  | repetition hp hrep => exact h.nextRepetition hp hrep

theorem advanceTimes_preSound (h : b.PreSound c) (n : Nat) : (advanceTimes c n b).PreSound c := by
  induction n generalizing b with
  | zero => exact h
  | succ n ih => exact ih (h.pass (pass_advance c b))

/-- `normalise()` leaves sound registers. -/
theorem normalise_sound (h : b.PreSound c) : (normalise c b).Sound c :=
  (h.advanceTimes_preSound 6).sound_of_exit (advance_normalise c b)

end Block.PreSound

/-! ### The steps of the block -/

theorem validSymbol_iff {v : Byte} : validSymbol v = true ↔ v = 0 ∨ v = 1 := by simp [validSymbol]

theorem Cause.code_known (e : Cause) : e.code = 0 ∨ e.code = 1 ∨ e.code = 2 := by cases e <;> decide

theorem inFlight_start (i : Instr) :
    inFlight ((b.latchCommand (encode i)).setPhase (firstPhase i)) = some i := by
  cases i <;> simp [inFlight, firstPhase]

namespace Block

theorem reset_sound (c : Config) : Block.reset.Sound c :=
  ⟨nofun, ⟨nofun, nofun⟩, nofun, fun h => absurd rfl h, ⟨fun _ => ⟨rfl, rfl⟩, nofun⟩,
    ⟨.inl rfl, fun h => absurd rfl h⟩, nofun, nofun⟩

/-- End leaves sound registers (R136). -/
theorem Sound.setPhase_idle (h : b.Sound c) (hp : b.phase = .finish) : (b.setPhase .idle).Sound c := by
  obtain ⟨hhave, -, -, -, hfirst, hcode, hwarn, -⟩ := h
  have hb : b.haveByte = false := hhave.not_held (by simp [hp])
  exact ⟨by simp [hb], ⟨nofun, nofun⟩, nofun, fun _ => .inr (.inr rfl), hfirst, hcode, hwarn, nofun⟩

/-- An accepted command begins with every R40 clause in place (R131). -/
theorem Sound.start (h : b.Sound c) (i : Instr) :
    PreSound c ((b.latchCommand (encode i)).setPhase (firstPhase i)) := by
  obtain ⟨-, -, -, -, hfirst, -, hwarn, -⟩ := h
  exact
    { havePhase := nofun
      withinLimit := withinLimit_of_cnt_zero rfl rfl fun _ => Nat.zero_le _
      symbolLatch := fun _ => ⟨nofun, fun _ => rfl⟩
      ecodePhase := fun he => absurd rfl he
      firstCapture := hfirst
      codeKnown := ⟨.inl rfl, fun he => absurd rfl he⟩
      warnConfigured := hwarn
      commandLatched := fun j hj => by
        obtain rfl : i = j := by simpa [inFlight_start] using hj
        rfl }

/-! Counting and holding: what Pop and Emit have in common. -/

/-- One element more is counted and no byte is left held, whatever is written to `ACC`, `CHIP` and `WARN` besides
(R27). -/
theorem Sound.counted (h : b.Sound c) {acc : Byte} {chip : BitVec 2} {held warn : Bool}
    (hheld : held = false) (hchip : b.phase = .enc → chip = 0)
    (hwarn : warn = true → c.skipBadSymbol = true) :
    PreSound c
      { b with acc := acc, chip := chip, haveByte := held, warn := warn, cnt := b.cnt + 1 } := by
  obtain ⟨-, ⟨hcnt, hrep⟩, -, hecode, hfirst, hcode, -, hcmd⟩ := h
  subst hheld
  exact
    { havePhase := nofun
      withinLimit := ⟨fun n hn => ⟨toNat_add_one_le (hcnt n hn), nofun⟩, fun hp => (hrep hp).le⟩
      symbolLatch := fun hp => ⟨nofun, fun _ => hchip hp⟩
      ecodePhase := hecode
      firstCapture := hfirst
      codeKnown := hcode
      warnConfigured := hwarn
      commandLatched := hcmd }

/-- A byte is held and nothing is counted, whatever is written to `CHIP` besides. -/
theorem Sound.holding (h : b.Sound c) {sym : Byte} {chip : BitVec 2} {held : Bool} (hheld : held = true)
    (hp : b.phase = .enc ∨ b.phase = .fPre ∨ b.phase = .fPay)
    (hsym : b.phase = .enc → sym = 0 ∨ sym = 1) :
    PreSound c { b with sym := sym, chip := chip, haveByte := held } := by
  obtain ⟨-, ⟨hcnt, hrep⟩, -, hecode, hfirst, hcode, hwarn, hcmd⟩ := h
  subst hheld
  exact
    { havePhase := fun _ => hp
      withinLimit := ⟨fun n hn => ⟨(hcnt n hn).le, fun _ => hcnt n hn⟩, fun hb => (hrep hb).le⟩
      symbolLatch := fun he => ⟨fun _ => hsym he, nofun⟩
      ecodePhase := hecode
      firstCapture := hfirst
      codeKnown := hcode
      warnConfigured := hwarn
      commandLatched := hcmd }

theorem Sound.chip_zero (h : b.Sound c) (hb : b.haveByte = false) : b.phase = .enc → b.chip = 0 := by
  obtain ⟨-, -, hsym, -⟩ := h
  exact fun hp => (hsym hp).2 hb

theorem Sound.warn_configured (h : b.Sound c) : b.WarnConfigured c := by
  obtain ⟨-, -, -, -, -, -, hwarn, -⟩ := h
  exact hwarn

theorem Sound.countUp (h : b.Sound c) (hb : b.haveByte = false) : b.countUp.PreSound c :=
  h.counted hb (h.chip_zero hb) h.warn_configured

/-! Exceptions. -/

/-- The cause on record after an exception (R40 (e), R236). -/
theorem FirstCapture.cause_raised (h : b.FirstCapture) (e : Cause) :
    (if b.err then b.cause else e.code) = 1 ∨ (if b.err then b.cause else e.code) = 2 := by
  obtain ⟨-, hraised⟩ := h
  cases hb : b.err with
  | true => exact hraised hb
  | false => cases e <;> simp [Cause.code]

/-- An illegal word leaves every R40 clause in place (R131, R234). -/
theorem Sound.illegal (h : b.Sound c) (w : Word) :
    PreSound c ((raiseException .illegalCmd w (b.latchCommand w)).setPhase .finish) := by
  obtain ⟨-, -, -, -, hfirst, -, hwarn, -⟩ := h
  rw [raiseException_eq]
  exact
    { havePhase := nofun
      withinLimit := ⟨nofun, nofun⟩
      symbolLatch := nofun
      ecodePhase := fun _ => .inr (.inl rfl)
      firstCapture := ⟨nofun, fun _ => hfirst.cause_raised .illegalCmd⟩
      codeKnown := ⟨Cause.code_known .illegalCmd, fun _ => rfl⟩
      warnConfigured := hwarn
      commandLatched := nofun }

/-- An invalid symbol refused leaves every R40 clause in place (R174). -/
theorem Sound.reject (h : b.Sound c) (hp : b.phase = .enc) (hb : b.haveByte = false) (v : Byte) :
    (rejectSymbol v b).PreSound c := by
  obtain ⟨-, ⟨hcnt, -⟩, -, -, hfirst, -, hwarn, hcmd⟩ := h
  simp only [limit, inFlight, CommandLatched, hp] at hcnt hcmd
  rw [rejectSymbol, raiseException_eq]
  exact
    { havePhase := fun hh => absurd (hb.symm.trans hh) nofun
      withinLimit :=
        ⟨fun n hn => ⟨toNat_add_one_le (hcnt n hn), fun hh => absurd (hb.symm.trans hh) nofun⟩, nofun⟩
      symbolLatch := nofun
      ecodePhase := fun _ => .inl rfl
      firstCapture := ⟨nofun, fun _ => hfirst.cause_raised .encSymbol⟩
      codeKnown := ⟨Cause.code_known .encSymbol, fun _ => rfl⟩
      warnConfigured := hwarn
      commandLatched := hcmd }

/-! Pop and Emit. -/

/-- R137 for `in_ready`, as a condition on `PHASE` and `HAVE`. -/
theorem inReady_iff : b.inReady = true ↔
    (b.phase = .enc ∨ b.phase = .eDrain ∨ b.phase = .fPre ∨ b.phase = .fPay) ∧ b.haveByte = false := by
  cases hp : b.phase <;> simp [inReady, hp]

/-- A Pop of `ENC`, whatever the byte (R172, R174, R176). -/
theorem Sound.takeSymbol (h : b.Sound c) (hp : b.phase = .enc) (hb : b.haveByte = false) (v : Byte) :
    (takeSymbol c v b).PreSound c := by
  unfold Machine.takeSymbol
  split
  · exact h.holding rfl (.inl hp) fun _ => validSymbol_iff.mp ‹_›
  · split
    · exact h.counted hb (h.chip_zero hb) fun _ => ‹_›
    · exact h.reject hp hb v

theorem Sound.popEffect (h : b.Sound c) (hr : b.inReady = true) (v : Byte) :
    (popEffect c v b).PreSound c := by
  obtain ⟨hp | hp | hp | hp, hb⟩ := inReady_iff.mp hr <;> simp only [Machine.popEffect, hp]
  · exact h.takeSymbol hp hb v
  · exact h.countUp hb
  · exact h.holding rfl (by simp [hp]) (by simp [hp])
  · exact h.holding rfl (by simp [hp]) (by simp [hp])

/-- An Emit of `ENC` (R173). -/
theorem Sound.nextChip (h : b.Sound c) (hp : b.phase = .enc) (hb : b.haveByte = true) :
    b.nextChip.PreSound c := by
  have hwarn := h.warn_configured
  unfold Block.nextChip
  split
  · exact h.counted rfl (fun _ => rfl) hwarn
  · have hsym : b.sym = 0 ∨ b.sym = 1 := by
      obtain ⟨-, -, hsym, -⟩ := h
      exact (hsym hp).1 hb
    exact h.holding hb (.inl hp) fun _ => hsym

theorem Sound.emitEffect (h : b.Sound c) (hv : b.outValid = true) :
    (emitEffect b).PreSound c := by
  have hwarn := h.warn_configured
  have hhave : b.HavePhase := h.1
  cases hp : b.phase <;> simp only [Machine.emitEffect, hp]
  case enc => exact h.nextChip hp (by simpa [outValid, hp] using hv)
  case fPre | fPay => exact h.counted rfl (by simp [hp]) hwarn
  all_goals exact h.countUp (hhave.not_held (by simp [hp]))

end Block

/-! ### Every step -/

/-- Every move of the block leaves sound registers (R131, R134 to R136). -/
theorem Moved.keeps_sound (h : Moved s t) (hs : s.Sound) : t.Sound := by
  obtain ⟨hc, hb⟩ := hs
  cases h with
  | accept i => exact ⟨hc, (hb.start i).normalise_sound⟩
  | pop v _ hr => exact ⟨hc, (hb.popEffect hr v).normalise_sound⟩
  | emit _ hv => exact ⟨hc, (hb.emitEffect hv).normalise_sound⟩
  | done hp => exact ⟨hc, hb.setPhase_idle hp⟩

/-- Every turn of the block leaves sound registers. -/
theorem blockStep_keeps_sound (hs : s.Sound) (h : blockStep s = .next t) : t.Sound := by
  obtain ⟨rfl, -⟩ | ⟨-, hmoved⟩ | ⟨w, rest, -, -, ⟨i, -, rfl⟩ | ⟨-, rfl⟩⟩ := blockStep_cases h
  · exact hs
  · exact hmoved.keeps_sound hs
  · exact ⟨hs.1, (hs.2.start i).normalise_sound⟩
  · exact ⟨hs.1, (hs.2.illegal w).normalise_sound⟩

/-- Only a reset changes the registers on another agent's turn (R260). -/
theorem environmentStep_keeps_sound (hs : s.Sound) (turn : Turn) : (environmentStep turn s).Sound := by
  cases turn with
  | reset => exact ⟨hs.1, Block.reset_sound s.config⟩
  | block | command _ | byte _ | sink _ => exact hs

/-- Settles O44, by what a turn of each agent can do (R130). -/
theorem everyStepKeepsSoundness : Obligations.EveryStepKeepsSoundness := by
  intro s t hs h
  have hsched (rest : List Turn) : ({ s with schedule := rest } : State).Sound := hs
  obtain ⟨-, hblock⟩ | ⟨turn, rest, -, -, rfl⟩ := step_cases h
  · exact blockStep_keeps_sound (hsched _) hblock
  · exact environmentStep_keeps_sound (hsched rest) turn

/-- Settles O13: the reset state and its pins are closed terms. -/
theorem resetRegistersAndPins : Obligations.ResetRegistersAndPins := by
  unfold Obligations.ResetRegistersAndPins
  decide

end Sys2Proof.Machine
end

section
/-! PROOFS. The legality predicate of command words (30_encoding.md R97, O3) and the pseudo-commands (R109, O7).

A row of R96 matches a word when the bits under its mask, read as a number, are the row's: the opcode, and zero
reserved bits. So whether a row matches, and whether the word decodes, is arithmetic on the word's number. -/

namespace Sys2Proof

/-! ### The rows (R96) -/

theorem and_mask8_eq_iff (w v : Word) :
    w &&& 0xFFFFFF00#32 = v ↔ w.toNat / 2 ^ 8 * 2 ^ 8 = v.toNat := by
  rw [← BitVec.toNat_inj, and_mask8_toNat]

theorem and_mask16_eq_iff (w v : Word) :
    w &&& 0xFFFF0000#32 = v ↔ w.toNat / 2 ^ 16 * 2 ^ 16 = v.toNat := by
  rw [← BitVec.toNat_inj, and_mask16_toNat]

theorem and_mask18_eq_iff (w v : Word) :
    w &&& 0xFFFC0000#32 = v ↔ w.toNat / 2 ^ 18 * 2 ^ 18 = v.toNat := by
  rw [← BitVec.toNat_inj, and_mask18_toNat]

section Rows

variable (w : Word)

theorem decompRow_iff :
    w &&& 0xFFFFFF00#32 = 0x10000000#32 ↔ w.toNat / 2 ^ 28 = 1 ∧ w.toNat / 2 ^ 8 % 2 ^ 20 = 0 := by
  rw [and_mask8_eq_iff, BitVec.toNat_ofNat]
  omega

theorem encRow_iff :
    w &&& 0xFFFF0000#32 = 0x20000000#32 ↔ w.toNat / 2 ^ 28 = 2 ∧ w.toNat / 2 ^ 16 % 2 ^ 12 = 0 := by
  rw [and_mask16_eq_iff, BitVec.toNat_ofNat]
  omega

theorem burstRow_iff :
    w &&& 0xFFFFFF00#32 = 0x30000000#32 ↔ w.toNat / 2 ^ 28 = 3 ∧ w.toNat / 2 ^ 8 % 2 ^ 20 = 0 := by
  rw [and_mask8_eq_iff, BitVec.toNat_ofNat]
  omega

theorem frameRow_iff :
    w &&& 0xFFFC0000#32 = 0x40000000#32 ↔ w.toNat / 2 ^ 28 = 4 ∧ w.toNat / 2 ^ 18 % 2 ^ 10 = 0 := by
  rw [and_mask18_eq_iff, BitVec.toNat_ofNat]
  omega

/-- At most one row matches a word, because a row that matches fixes the opcode and the four opcodes differ (R97). -/
theorem countP_rows_le_one :
    List.countP (fun row : Word × Word => w &&& row.1 == row.2)
      [(0xFFFFFF00#32, 0x10000000#32), (0xFFFF0000#32, 0x20000000#32), (0xFFFFFF00#32, 0x30000000#32),
        (0xFFFC0000#32, 0x40000000#32)] ≤ 1 := by
  simp only [List.countP_cons, List.countP_nil, beq_iff_eq, decompRow_iff, encRow_iff, burstRow_iff,
    frameRow_iff]
  split_ifs <;> omega

/-! ### Legality (R97) -/

theorem legal_iff_rows :
    legal w = true ↔
      ((w &&& 0xFFFFFF00#32 = 0x10000000#32 ∨ w &&& 0xFFFF0000#32 = 0x20000000#32) ∨
        (w &&& 0xFFFFFF00#32 = 0x30000000#32 ∨ w &&& 0xFFFC0000#32 = 0x40000000#32)) := by
  simp only [legal, Bool.or_eq_true, beq_iff_eq, or_assoc]

/-- A word is legal when its opcode is a command's and that command's reserved bits are zero. -/
theorem legal_iff_opcode_reserved :
    legal w = true ↔
      (w.toNat / 2 ^ 28 = 1 ∧ w.toNat / 2 ^ 8 % 2 ^ 20 = 0) ∨
      (w.toNat / 2 ^ 28 = 2 ∧ w.toNat / 2 ^ 16 % 2 ^ 12 = 0) ∨
      (w.toNat / 2 ^ 28 = 3 ∧ w.toNat / 2 ^ 8 % 2 ^ 20 = 0) ∨
      (w.toNat / 2 ^ 28 = 4 ∧ w.toNat / 2 ^ 18 % 2 ^ 10 = 0) := by
  rw [legal_iff_rows, decompRow_iff, encRow_iff, burstRow_iff, frameRow_iff, or_assoc]

/-- The decoder accepts exactly the legal words: both look at the opcode and its reserved bits only. -/
theorem decode_ok_iff_legal : (∃ i, decode w = .ok i) ↔ legal w = true := by
  simp only [decode_eq_ok_iff, legal_iff_opcode_reserved, exists_or, exists_and_left, exists_eq, and_true]

end Rows

/-- Every value of every field is legal (R97): the fields lie below the reserved bits. -/
theorem legal_encode (i : Instr) : legal (encode i) = true := by
  rw [legal_iff_opcode_reserved]
  cases i with
  | decomp code =>
    have := code.isLt
    rw [encode_decomp_toNat]
    omega
  | enc count =>
    have := count.isLt
    rw [encode_enc_toNat]
    omega
  | burst code =>
    have := code.isLt
    rw [encode_burst_toNat]
    omega
  | frame prelen paylen hdr csum =>
    have := prelen.isLt
    have := paylen.isLt
    have := hdr.toNat_le
    have := csum.toNat_le
    rw [encode_frame_toNat]
    omega

/-- Settles O3: the rows, the decoder and the commands' words, each by opcode and reserved bits. -/
theorem legalWordsAreTheFourRows : Obligations.LegalWordsAreTheFourRows :=
  ⟨legal_iff_rows, countP_rows_le_one, legal_encode, decode_ok_iff_legal⟩

/-! ### Pseudo-commands (R109) -/

/-- The assembler looks at a command line only through its range check and the command it stands for (R108). -/
theorem assemble_of_instr {c : AsmCommand} {i : Instr} (h : c.instr = some i) :
    assemble c = if c.fits then some (encode i) else none := by
  cases c with
  | word w => cases h
  | decomp | enc | burst | frame | frameRaw | frameL | frameC | frameLC => simp [assemble, h]

/-- With flags in range a `FRAME` fits when its two lengths do. -/
theorem fits_frame_of_flags (p n : Nat) {h k : Nat} (hh : h ≤ 1) (hk : k ≤ 1) :
    (AsmCommand.frame p n h k).fits = (decide (p ≤ 255) && decide (n ≤ 255)) := by
  simp [AsmCommand.fits, hh, hk]

/-- A line that stands for a `FRAME`'s command and checks its two lengths assembles as that `FRAME`. -/
theorem assemble_eq_frame {c : AsmCommand} {p n h k : Nat} (hc : c.instr = (AsmCommand.frame p n h k).instr)
    (hfits : c.fits = (decide (p ≤ 255) && decide (n ≤ 255))) (hh : h ≤ 1) (hk : k ≤ 1) :
    assemble c = assemble (.frame p n h k) := by
  rw [assemble_of_instr hc, assemble_of_instr rfl, hfits, fits_frame_of_flags p n hh hk]

theorem assemble_word_toNat (w : Word) : assemble (.word w.toNat) = some w := by
  simp [assemble, AsmCommand.fits, w.isLt]

/-- Settles O7: a pseudo-command and its `FRAME` stand for one command and have one range check. -/
theorem pseudoCommandsExpandToFrame : Obligations.PseudoCommandsExpandToFrame := fun _ _ =>
  ⟨assemble_eq_frame rfl rfl (by decide) (by decide), assemble_eq_frame rfl rfl (by decide) (by decide),
    assemble_eq_frame rfl rfl (by decide) (by decide), assemble_eq_frame rfl rfl (by decide) (by decide),
    assemble_word_toNat⟩

end Sys2Proof
end

section
/-! PROOFS. The execution of commands (40_command_execution.md): End (R136, O19), the handshake outputs (R137, O46),
and the command words that wait while a command is in flight (R139, O49). -/

namespace Sys2Proof.Machine

variable {b : Block} {s t : State}

/-! ### End (R136) -/

theorem endStep_ready (h : s.sinkReady = true) :
    endStep s = .next
      { s with output := s.output ++ [.done s.block.ecode], block := { s.block with phase := .idle } } := by
  rw [endStep, if_pos h]; rfl

/-- In `END` no command is in flight and none is accepted: the block's step is End (R137). -/
theorem blockStep_finish (hp : s.block.phase = .finish) : blockStep s = endStep s := by
  have hflight : inFlight s.block = none := by rw [inFlight, hp]
  simp only [blockStep, hflight, hp, reduceCtorEq, if_false]

/-- Settles O19: the block's turn in `END` is End, and the sink is ready for its beat. -/
theorem endEmitsCompletionCode : Obligations.EndEmitsCompletionCode := by
  intro s hmoves hphase hready
  rw [step_of_blockMoves hmoves, blockStep_finish (by exact hphase), endStep_ready (by exact hready)]

/-! ### The handshake outputs (R137) -/

namespace Block

theorem cmdReady_iff : b.cmdReady = true ↔ b.phase = .idle := beq_iff_eq

theorem outEnd_iff : b.outEnd = true ↔ b.phase = .finish := beq_iff_eq

/-- R137 for `out_valid`, as a condition on `PHASE` and `HAVE`. -/
theorem outValid_iff : b.outValid = true ↔
    b.phase ∈ [Phase.dec, .burst, .fLead, .fHdr, .fCsum, .fTrail, .finish] ∨
      (b.phase ∈ [Phase.enc, .fPre, .fPay] ∧ b.haveByte = true) := by
  cases hp : b.phase <;> simp [outValid, hp]

/-- Where a byte is held only in a phase that emits it (R40 (a)), the block is ready for a word, or for a byte, or has
a beat to emit, and only one of them. -/
theorem HavePhase.one_handshake (h : b.HavePhase) :
    b.cmdReady.toNat + b.inReady.toNat + b.outValid.toNat = 1 := by
  cases hp : b.phase
  case enc | fPre | fPay => cases hb : b.haveByte <;> simp [cmdReady, inReady, outValid, hp, hb]
  case eDrain =>
    have hb : b.haveByte = false := h.not_held (by simp [hp])
    simp [cmdReady, inReady, outValid, hp, hb]
  all_goals simp [cmdReady, inReady, outValid, hp]

end Block

/-- Settles O46: R137 output by output; R40 (a) leaves exactly one of the three up. -/
theorem exactlyOneHandshakeIsUp : Obligations.ExactlyOneHandshakeIsUp := by
  intro s
  have hin : s.block.inReady = true ↔
      s.block.phase ∈ [Phase.enc, .eDrain, .fPre, .fPay] ∧ s.block.haveByte = false := by
    simpa using Block.inReady_iff
  have hone (hs : s.Sound) :
      s.block.cmdReady.toNat + s.block.inReady.toNat + s.block.outValid.toNat = 1 := by
    obtain ⟨-, hhave, -⟩ := hs
    exact hhave.one_handshake
  exact ⟨Block.cmdReady_iff, hin, Block.outValid_iff, Block.outEnd_iff, hone⟩

/-! ### Words offered while a command is in flight (R139) -/

/-- No move changes what is offered: an Accept's word is taken before its move (R131). -/
theorem Moved.commands_eq (h : Moved s t) : t.commands = s.commands := by
  cases h <;> rfl

/-- A busy block takes no command word on its turn. -/
theorem blockStep_commands_of_busy (hp : s.block.phase ≠ .idle) (h : blockStep s = .next t) :
    t.commands = s.commands := by
  obtain ⟨rfl, -⟩ | ⟨-, hmoved⟩ | ⟨_, _, hidle, -⟩ := blockStep_cases h
  · rfl
  · exact hmoved.commands_eq
  · exact absurd hidle hp

/-- Another agent's turn adds the word it offers, if any, behind those that wait. -/
theorem environmentStep_commands (turn : Turn) (s : State) :
    (environmentStep turn s).commands = s.commands ++ turn.offeredWord.toList := by
  cases turn with
  | command _ => rfl
  | block | byte _ | reset | sink _ => exact (List.append_nil _).symm

/-- Settles O49, by whose turn it is: a busy block takes no word, and the host's offers queue up. -/
theorem oneCommandInFlight : Obligations.OneCommandInFlight := by
  intro s t hbusy hstep
  have hblock (hmoves : s.BlockMoves) : t.commands = s.commands :=
    blockStep_commands_of_busy (s := { s with schedule := s.schedule.tail }) hbusy
      (step_of_blockMoves hmoves ▸ hstep)
  refine ⟨Bool.eq_false_iff.mpr fun hready => hbusy (Block.cmdReady_iff.mp hready), ?_, hblock, ?_⟩
  · obtain ⟨hmoves, -⟩ | ⟨turn, _, -, -, rfl⟩ := step_cases hstep
    · exact ⟨[], by rw [hblock hmoves, List.append_nil]⟩
    · exact ⟨_, environmentStep_commands turn _⟩
  · intro w rest hsched
    rw [step_of_environment hsched (by simp)] at hstep
    cases hstep
    exact ⟨rfl, rfl⟩

end Sys2Proof.Machine
end

section
/-! PROOFS. The silence of a frame (43_frame_builder.md R201, R206, O35): one Emit of `F_LEAD` or `F_TRAIL`. -/

namespace Sys2Proof.Machine

variable {c : Config} {b : Block} {s : State}

/-- The count reaches the length of a silence with its tenth byte, wrapped or not (R8, R9). -/
theorem countUp_cnt_toNat_eq_ten_iff : b.countUp.cnt.toNat = 10 ↔ b.cnt = 9 := by
  rw [Block.countUp_cnt]
  bv_omega

/-- Counting a byte of the leading silence: the tenth passes on to the first part that is not empty (R201). -/
theorem normalise_countUp_fLead (hp : b.phase = .fLead) (hb : b.haveByte = false) :
    normalise c b.countUp =
      if b.cnt = 9 then
        b.enterPhase
          (afterSilence (prelenField b.cmd) (paylenField b.cmd) (hdrField b.cmd) (csumField b.cmd))
      else b.countUp :=
  (normalise_fLead (b := b.countUp) hp hb).trans (if_congr countUp_cnt_toNat_eq_ten_iff rfl rfl)

/-- Counting a byte of the trailing silence: the tenth completes the command, and `CNT` stays (R206). -/
theorem normalise_countUp_fTrail (hp : b.phase = .fTrail) :
    normalise c b.countUp = b.countUp.setPhase (if b.cnt = 9 then .finish else .fTrail) := by
  have hstay : b.countUp.setPhase .fTrail = b.countUp := by rw [← hp]; rfl
  rw [normalise_fTrail (b := b.countUp) hp, apply_ite (Block.setPhase · b.countUp), hstay]
  exact if_congr countUp_cnt_toNat_eq_ten_iff rfl rfl

/-- In both silences a `FRAME` emits a zero byte and looks at no offered byte (R201, R206). -/
theorem exec_frame_silence (hp : s.block.phase = .fLead ∨ s.block.phase = .fTrail)
    (hready : s.sinkReady = true) (prelen paylen : Byte) (hdr csum : Bool) :
    exec (.frame prelen paylen hdr csum) s = .next
      { s with output := s.output ++ [.data 0x00], block := normalise s.config s.block.countUp } := by
  have hemit : exec (.frame prelen paylen hdr csum) s = emit Config.silenceByte Block.countUp s := by
    obtain hp | hp := hp <;> simp only [exec, execFrame, hp]
  rw [hemit, emit_ready hready, Config.silenceByte]

/-- Settles O35: both silences make the same Emit, and differ in where the tenth byte leads. -/
theorem frameEmitsSilence : Obligations.FrameEmitsSilence := by
  intro prelen paylen hdr csum s hready hhave _
  constructor <;> intro hp
  · rw [exec_frame_silence (.inl hp) hready, normalise_countUp_fLead hp hhave]
    rfl
  · rw [exec_frame_silence (.inr hp) hready, normalise_countUp_fTrail hp]
    rfl

end Sys2Proof.Machine
end

section
/-! PROOFS. The encoding of commands (30_encoding.md): the round trip between commands and words (R92 to R96, O1, O2,
O5), the illegal words (R98, O4) and the assembler's formula (R108, O6).

A command's word, its opcode and its reserved bits are numbers (`encode_decomp_toNat` and its siblings,
`decode_eq_ok_iff`), so each claim is arithmetic, one case per command. -/

namespace Sys2Proof

/-! ### The round trip (R92 to R96) -/

/-- Settles O1, command by command: the word has its row's opcode, zero reserved bits and the operands in their
fields. -/
theorem decodeOfEncodeIsTheCommand : Obligations.DecodeOfEncodeIsTheCommand := by
  intro i
  rw [decode_eq_ok_iff]
  cases i with
  | decomp code =>
    have := code.isLt
    rw [codeField_encode_decomp, encode_decomp_toNat]
    exact .inl ⟨by omega, by omega, rfl⟩
  | enc count =>
    have := count.isLt
    rw [countField_encode_enc, encode_enc_toNat]
    exact .inr (.inl ⟨by omega, by omega, rfl⟩)
  | burst code =>
    have := code.isLt
    rw [codeField_encode_burst, encode_burst_toNat]
    exact .inr (.inr (.inl ⟨by omega, by omega, rfl⟩))
  | frame prelen paylen hdr csum =>
    have := prelen.isLt
    have := paylen.isLt
    have := hdr.toNat_le
    have := csum.toNat_le
    rw [prelenField_encode_frame, paylenField_encode_frame, hdrField_encode_frame,
      csumField_encode_frame, encode_frame_toNat]
    exact .inr (.inr (.inr ⟨by omega, by omega, rfl⟩))

theorem hdrField_toNat (w : Word) : (hdrField w).toNat = w.toNat / 2 ^ 16 % 2 := by
  rw [hdrField_eq]
  obtain h | h := Nat.mod_two_eq_zero_or_one (w.toNat / 2 ^ 16) <;> rw [h] <;> rfl

theorem csumField_toNat (w : Word) : (csumField w).toNat = w.toNat / 2 ^ 17 % 2 := by
  rw [csumField_eq]
  obtain h | h := Nat.mod_two_eq_zero_or_one (w.toNat / 2 ^ 17) <;> rw [h] <;> rfl

/-- Settles O2, row by row: opcode, reserved bits and fields are all the bits of the word. -/
theorem encodeOfDecodedIsTheWord : Obligations.EncodeOfDecodedIsTheWord := by
  intro w i hdecode
  refine BitVec.eq_of_toNat_eq ?_
  obtain ⟨hopc, hres, rfl⟩ | ⟨hopc, hres, rfl⟩ | ⟨hopc, hres, rfl⟩ | ⟨hopc, hres, rfl⟩ :=
    (decode_eq_ok_iff w i).mp hdecode
  · rw [encode_decomp_toNat, codeField_toNat]
    omega
  · rw [encode_enc_toNat, countField_toNat]
    omega
  · rw [encode_burst_toNat, codeField_toNat]
    omega
  · rw [encode_frame_toNat, prelenField_toNat, paylenField_toNat, hdrField_toNat, csumField_toNat]
    omega

/-- Settles O5: twelve closed words, decoded. -/
theorem specWordsDecode : Obligations.SpecWordsDecode := by
  unfold Obligations.SpecWordsDecode
  decide

/-! ### Illegal words (R98) -/

/-- Settles O4: the complement of the four rows, by opcode. -/
theorem illegalWordsByOpcodeOrReservedBit : Obligations.IllegalWordsByOpcodeOrReservedBit := by
  refine ⟨fun w => ?_, by decide⟩
  rw [← Bool.not_eq_true, legal_iff_opcode_reserved]
  omega

/-! ### The assembler (R108) -/

theorem assemble_isSome (c : AsmCommand) : (assemble c).isSome = c.fits := by
  cases c with
  | word w => cases h : (AsmCommand.word w).fits <;> simp [assemble, h]
  | decomp | enc | burst | frame | frameRaw | frameL | frameC | frameLC =>
    rw [assemble_of_instr rfl]
    split <;> simp_all

theorem assemble_of_fits {c : AsmCommand} {i : Instr} (hfits : c.fits = true) (hinstr : c.instr = some i) :
    assemble c = some (encode i) := by
  rw [assemble_of_instr hinstr, if_pos hfits]

theorem toNat_ofNat_of_le_255 {n : Nat} (h : n ≤ 255) : (BitVec.ofNat 8 n).toNat = n := by
  rw [BitVec.toNat_ofNat, Nat.mod_eq_of_lt (by omega)]

/-- The bit of a flag that is in range (R94). -/
theorem toNat_beq_one {n : Nat} (h : n ≤ 1) : (n == 1).toNat = n := by
  interval_cases n <;> rfl

/-- Settles O6: operands that fit pass into their fields unchanged, and the command's word is the formula's. -/
theorem assembledWordIsTheFormula : Obligations.AssembledWordIsTheFormula := by
  refine ⟨assemble_isSome, fun code hcode => ?_, fun count hcount => ?_, fun code hcode => ?_,
    fun p n h k hp hn hh hk => ?_⟩
  · rw [assemble_of_fits (by simpa [AsmCommand.fits]) rfl, Option.map_some, encode_decomp_toNat,
      toNat_ofNat_of_le_255 hcode]
    rfl
  · rw [assemble_of_fits (by simpa [AsmCommand.fits]) rfl, Option.map_some, encode_enc_toNat,
      BitVec.toNat_ofNat, Nat.mod_eq_of_lt (by omega)]
    rfl
  · rw [assemble_of_fits (by simpa [AsmCommand.fits]) rfl, Option.map_some, encode_burst_toNat,
      toNat_ofNat_of_le_255 hcode]
    rfl
  · rw [assemble_of_fits (by simp [AsmCommand.fits, *]) rfl, Option.map_some, encode_frame_toNat,
      toNat_ofNat_of_le_255 hp, toNat_ofNat_of_le_255 hn, toNat_beq_one hh, toNat_beq_one hk]
    rfl

end Sys2Proof
end

section
/-! PROOFS. The reference functions (00_scope.md R13) and the codeword memory (20_memory.md R60): the chips of a burst
(O8, O9, O10), the length of a frame (O11), and how a history is read as packets (O12).

A repetition is dead air and then the codewords of eleven symbols (R104); both the reference function and the chip the
block computes for a position read them off one list of symbols. -/

namespace Sys2Proof.Machine

/-! ### The bits of a code (R161) -/

theorem reference_bit_toNat (code i : Nat) : (Reference.bit code i).toNat = (code >>> (7 - i)) % 2 := by
  simp [Reference.bit, Nat.and_one_is_mod]

theorem bit_eq_some {i : Nat} (h : i ≤ 7) (code : Byte) :
    bit code i = some (Reference.bit code.toNat i) := by
  rw [bit, if_pos h, Option.some_inj]
  refine BitVec.eq_of_toNat_eq ?_
  rw [reference_bit_toNat, BitVec.toNat_setWidth, BitVec.toNat_and, BitVec.toNat_ushiftRight]
  simp [Nat.and_one_is_mod]

theorem zext8_eq_ofNat (b : Chip) : zext8 b = BitVec.ofNat 8 b.toNat := by
  simp [zext8]

/-! ### Codewords (R60) -/

/-- Settles O8: the table, entry by entry. -/
theorem codewordMemoryIsTheTable : Obligations.CodewordMemoryIsTheTable := by
  refine ⟨by decide, by decide, by decide, fun s => ?_, rfl⟩
  cases s <;> decide

/-- The chips of a symbol's codeword, in order (R60). -/
def codewordChips (x : Symbol) : List Chip := (codeword x).toList

theorem codewordChips_getElem? (x : Symbol) (j : Fin 4) :
    (codewordChips x)[j.val]? = some (cwChip x j) := by
  simp [codewordChips, cwChip]

@[simp] theorem length_codewordChips (x : Symbol) : (codewordChips x).length = 4 := Vector.length_toList

/-- Codewords one after the other: position q lies in slot q / 4, at chip q % 4. -/
theorem getElem?_flatMap_codewordChips (l : List Symbol) (q : Nat) :
    (l.flatMap codewordChips)[q]? = l[q / 4]?.map fun x => cwChip x ⟨q % 4, Nat.mod_lt _ (by decide)⟩ := by
  induction l generalizing q with
  | nil => rfl
  | cons x l ih =>
    rw [List.flatMap_cons]
    by_cases hq : q < 4
    · have hmod : q % 4 = q := Nat.mod_eq_of_lt hq
      rw [List.getElem?_append_left (by simpa using hq), Nat.div_eq_of_lt hq]
      simpa [hmod] using codewordChips_getElem? x ⟨q, hq⟩
    · obtain ⟨r, rfl⟩ := Nat.exists_eq_add_of_le' (Nat.le_of_not_lt hq)
      rw [List.getElem?_append_right (by simp), length_codewordChips, Nat.add_sub_cancel, ih,
        Nat.add_div_right r (by decide)]
      simp

/-- The symbol of a bit (R60). -/
def bitSymbol (b : Chip) : Symbol := if b = 0 then .zero else .one

theorem cw_eq (b : Chip) : Reference.cw b = codewordChips (bitSymbol b) := by
  unfold Reference.cw bitSymbol
  split <;> rfl

theorem ofNumber_toNat (b : Chip) : Symbol.ofNumber b.toNat = some (bitSymbol b) := by
  obtain rfl | rfl : b = 0 ∨ b = 1 := by bv_omega
  all_goals rfl

theorem encodeBits_eq (bits : List Chip) :
    Reference.encodeBits bits = (bits.map bitSymbol).flatMap codewordChips := by
  rw [Reference.encodeBits, List.flatMap_map]
  exact congrArg (List.flatMap · bits) (funext cw_eq)

/-! ### The repetition (R104, R179, R181) -/

/-- The eleven symbols of a repetition: the bits of the code between the three markers (R104). -/
def repetitionSymbols (code : Byte) : List Symbol :=
  .xState :: ((Reference.decompose code).take 6).map bitSymbol
    ++ .xState :: ((Reference.decompose code).drop 6).map bitSymbol ++ [.xState]

theorem repetition_eq (c : Config) (code : Byte) :
    Reference.repetition c code =
      Reference.deadAir c ++ (repetitionSymbols code).flatMap codewordChips := by
  have hx : Config.cwX.toList = codewordChips .xState := rfl
  simp [Reference.repetition, repetitionSymbols, encodeBits_eq, hx, List.append_assoc]

theorem length_repetitionSymbols (code : Byte) : (repetitionSymbols code).length = 11 := rfl

theorem length_repetition (c : Config) (code : Byte) : (Reference.repetition c code).length = c.repLen := by
  simp [repetition_eq, Reference.deadAir, List.length_flatMap, length_repetitionSymbols, repLen_eq]

/-- The symbol of a slot, bits by their number (R104). -/
theorem burstSymbol_eq (code : Byte) (slot : Nat) :
    burstSymbol code slot = (repetitionSymbols code)[slot]? := by
  have hbit {i : Nat} (h : i ≤ 7) :
      ((bit code i).bind fun b => Symbol.ofNumber b.toNat) =
        some (bitSymbol (Reference.bit code.toNat i)) := by
    rw [bit_eq_some h, Option.bind_some, ofNumber_toNat]
  by_cases hmark : slot = 0 ∨ slot = 7 ∨ slot = 10
  · rw [burstSymbol, if_pos hmark]
    obtain rfl | rfl | rfl := hmark <;> rfl
  by_cases hfirst : 1 ≤ slot ∧ slot ≤ 6
  · rw [burstSymbol, if_neg hmark, if_pos hfirst, hbit (by omega)]
    obtain ⟨_, _⟩ := hfirst
    interval_cases slot <;> rfl
  by_cases hsecond : slot = 8 ∨ slot = 9
  · rw [burstSymbol, if_neg hmark, if_neg hfirst, if_pos hsecond, hbit (by omega)]
    obtain rfl | rfl := hsecond <;> rfl
  · rw [burstSymbol, if_neg hmark, if_neg hfirst, if_neg hsecond,
      List.getElem?_eq_none (by rw [length_repetitionSymbols]; omega)]

/-- Settles O9: below the dead air's length both are its chip, and beyond it both read the list of symbols. -/
theorem burstChipIsTheRepetition : Obligations.BurstChipIsTheRepetition := by
  intro c code p
  rw [repetition_eq, burstChip]
  split
  · rw [List.getElem?_append_left (by simpa [Reference.deadAir])]
    simp [Reference.deadAir, *]
  · rw [List.getElem?_append_right (by simp [Reference.deadAir]; omega), getElem?_flatMap_codewordChips,
      burstSymbol_eq]
    simp [Reference.deadAir]

/-- Settles O10: every repetition has `REP_LEN` chips. -/
theorem burstLengthIsFixed : Obligations.BurstLengthIsFixed := by
  intro c code
  rw [Reference.buildPayload, List.length_flatten, List.map_replicate, List.sum_replicate,
    length_repetition, repLen_eq]
  rfl

/-! ### The frame (R208) -/

theorem length_buildFrame (pre pay : List Byte) (hdr cs : Bool) :
    (Reference.buildFrame pre pay hdr cs).length =
      20 + pre.length + 4 * hdr.toNat + pay.length + cs.toNat := by
  have hsilence : Reference.silence.length = 10 := rfl
  cases hdr <;> cases cs <;> simp [Reference.buildFrame, hsilence] <;> omega

/-- Settles O11: the length, and its least and greatest value. -/
theorem frameLengthIsFixed : Obligations.FrameLengthIsFixed := by
  intro pre pay hdr cs hpre hpay
  have := hdr.toNat_le
  have := cs.toNat_le
  rw [length_buildFrame]
  omega

/-! ### Packets (R141, R262) -/

namespace Reference

theorem packetsFrom_byteBeats (opened data : List Byte) (rest : List OutRecord) :
    packetsFrom opened (byteBeats data ++ rest) = packetsFrom (opened ++ data) rest := by
  induction data generalizing opened with
  | nil => rw [List.append_nil]; rfl
  | cons v data ih =>
    calc packetsFrom opened (byteBeats (v :: data) ++ rest)
        = packetsFrom (opened ++ [v]) (byteBeats data ++ rest) := rfl
      _ = packetsFrom (opened ++ v :: data) rest := by rw [ih, List.append_assoc]; rfl

end Reference

/-- Settles O12: DATA beats collect in the open packet, which an END beat closes and a reset drops. -/
theorem historiesSplitIntoPackets : Obligations.HistoriesSplitIntoPackets := by
  intro data code rest
  refine ⟨Reference.packetsFrom_byteBeats [] data _, Reference.packetsFrom_byteBeats [] data _, ?_,
    fun h => if_pos h, fun h => if_neg h⟩
  have h := Reference.packetsFrom_byteBeats [] data []
  rwa [List.append_nil] at h

end Sys2Proof.Machine
end

section
/-! PROOFS. The turns of the agents (40_command_execution.md R130): reset and the host's and sink's turns (O14, O15), the
block's turn (O16, O17, O18, O20), and Accept (O21, O22).

With a command in flight, what the block's step is follows from the handshake outputs alone: a Pop where `in_ready` is 1,
an Emit where `out_valid` is 1 (R137). -/

namespace Sys2Proof.Machine

variable {s t : State} {i : Instr} {w : Word}

/-! ### Turns of the host and the sink -/

/-- Settles O14: a reset turn. -/
theorem resetFromAnyState : Obligations.ResetFromAnyState := by
  intro s rest hsched
  rw [step_of_environment hsched (by decide)]
  rfl

/-- Settles O15: a turn that offers a word, a byte, or changes the sink. -/
theorem hostAndSinkTurns : Obligations.HostAndSinkTurns := by
  refine fun s rest => ⟨fun w hsched => ?_, fun v hsched => ?_, fun r hsched => ?_⟩ <;>
    rw [step_of_environment hsched (by simp)] <;> rfl

/-! ### The step of the command in flight -/

/-- The command in flight is of i's row of the opcode table. Its operands are those in `CMD` (R21). -/
def InFlightRow (i : Instr) (b : Block) : Prop := (inFlight b).map firstPhase = some (firstPhase i)

theorem inFlightRow_of_inFlight {b : Block} (h : inFlight b = some i) : InFlightRow i b := by
  rw [InFlightRow, h, Option.map_some]

theorem inFlightRow_decomp {b : Block} (hp : b.phase = .dec) (code : Byte) :
    InFlightRow (.decomp code) b := by
  rw [InFlightRow, inFlight, hp]; rfl

theorem inFlightRow_enc {b : Block} (hp : b.phase = .enc ∨ b.phase = .eDrain) (count : Half) :
    InFlightRow (.enc count) b := by
  obtain hp | hp := hp <;> rw [InFlightRow, inFlight, hp] <;> rfl

theorem inFlightRow_burst {b : Block} (hp : b.phase = .burst) (code : Byte) :
    InFlightRow (.burst code) b := by
  rw [InFlightRow, inFlight, hp]; rfl

theorem inFlightRow_frame {b : Block} (hp : b.phase ∈ [Phase.fLead, .fPre, .fHdr, .fPay, .fCsum, .fTrail])
    (prelen paylen : Byte) (hdr csum : Bool) : InFlightRow (.frame prelen paylen hdr csum) b := by
  unfold InFlightRow
  cases h : b.phase <;> simp_all [inFlight, firstPhase]

/-- The operands of the word that was decoded are not looked at while the command is in flight (R21). -/
theorem exec_eq_of_firstPhase {j : Instr} (hi : s.block.phase ≠ .idle) (h : firstPhase i = firstPhase j) :
    exec i s = exec j s := by
  cases i with
  | decomp | enc | burst | frame =>
    cases j <;> cases h
    cases hp : s.block.phase
    case idle => exact absurd hp hi
    all_goals simp only [exec, execDecomp, execEnc, execBurst, execFrame, hp]

theorem exec_of_row (h : InFlightRow i s.block) : ∃ j, inFlight s.block = some j ∧ exec i s = exec j s := by
  obtain ⟨j, hj, hfirst⟩ := Option.map_eq_some_iff.mp h
  have hbusy : s.block.phase ≠ .idle := fun hp => by simp [inFlight, hp] at hj
  exact ⟨j, hj, exec_eq_of_firstPhase hbusy hfirst.symm⟩

theorem pop_congr {use use' : Byte → Block → Block} (h : ∀ v, use v s.block = use' v s.block) :
    pop use s = pop use' s := by
  unfold pop
  split
  · rfl
  · rw [h]

theorem pop_nil {use : Byte → Block → Block} (h : s.input = []) : pop use s = .next s := by
  rw [pop, h]

theorem emit_eq_emitOr (f : Fault) (v : Byte) (after : Block → Block) :
    emit v after s = emitOr f (some v) after s := rfl

theorem emitOr_congr {f : Fault} {element element' : Option Byte} {after after' : Block → Block}
    (he : element = element') (ha : after s.block = after' s.block) :
    emitOr f element after s = emitOr f element' after' s := by
  simp only [emitOr, he, ha]

theorem emitOr_not_ready {f : Fault} {element : Option Byte} {after : Block → Block}
    (h : s.sinkReady = false) : emitOr f element after s = .next s := by
  unfold emitOr
  rw [h]; rfl

/-- Where `in_ready` is 1 the step of the command in flight is a Pop (R134, R137). -/
theorem exec_pop (hrow : InFlightRow i s.block) (hr : s.block.inReady = true) :
    exec i s = pop (popEffect s.config) s := by
  obtain ⟨j, hj, e⟩ := exec_of_row hrow
  rw [e]
  obtain ⟨hp | hp | hp | hp, hb⟩ := Block.inReady_iff.mp hr
  all_goals
    simp only [inFlight, hp] at hj
    cases hj
    simp only [exec, execEnc, execFrame, hp, hb]
    exact pop_congr fun v => by simp only [popEffect, hp]

/-- Where `out_valid` is 1 the step of the command in flight is an Emit of what stands on `out_data` (R135, R137). -/
theorem exec_emit (hrow : InFlightRow i s.block) (hv : s.block.outValid = true) :
    ∃ f, exec i s = emitOr f (s.block.outData s.config) emitEffect s := by
  obtain ⟨j, hj, e⟩ := exec_of_row hrow
  rw [e]
  cases hp : s.block.phase <;> simp only [inFlight, hp, Block.outValid, reduceCtorEq] at hj hv
  all_goals
    cases hj
    simp only [exec, execDecomp, execEnc, execBurst, execFrame, hp, hv, if_true]
  case dec | enc | burst =>
    exact ⟨_, emitOr_congr (by simp [Block.outData, hp, hv]) (by simp only [emitEffect, hp])⟩
  all_goals
    rw [emit_eq_emitOr .noSuchBit]
    exact ⟨_, emitOr_congr (by simp [Block.outData, hp, hv]) (by simp only [emitEffect, hp])⟩

/-- A Pop of the command in flight that finds a byte. -/
theorem exec_pop_cons (hrow : InFlightRow i s.block) (hr : s.block.inReady = true) {v : Byte}
    {rest : List Byte} (hi : s.input = v :: rest) :
    exec i s = .next
      { s with input := rest, block := normalise s.config (popEffect s.config v s.block) } := by
  rw [exec_pop hrow hr, pop_cons hi]

/-- An Emit of the command in flight that has an element and a ready sink. -/
theorem exec_emit_some (hrow : InFlightRow i s.block) (hv : s.block.outValid = true)
    (hs : s.sinkReady = true) {v : Byte} (hd : s.block.outData s.config = some v) :
    exec i s = .next
      { s with
        output := s.output ++ [.data v]
        block := normalise s.config (emitEffect s.block) } := by
  obtain ⟨f, e⟩ := exec_emit hrow hv
  rw [e, hd, emitOr_ready hs]

/-! ### The block's turn -/

/-- With nothing scheduled the block moves (log 1). -/
theorem step_of_unscheduled (h : s.schedule = []) : step s = blockStep s := by
  unfold step nextTurn
  rw [h]

theorem blockStep_of_inFlight (h : inFlight s.block = some i) : blockStep s = exec i s := by
  simp only [blockStep, h]

theorem inFlight_of_inReady {b : Block} (h : b.inReady = true) : ∃ i, inFlight b = some i := by
  obtain ⟨hp | hp | hp | hp, -⟩ := Block.inReady_iff.mp h <;> simp [inFlight, hp]

theorem inFlight_of_outValid {b : Block} (h : b.outValid = true) (hp : b.phase ≠ .finish) :
    ∃ i, inFlight b = some i := by
  cases hb : b.phase <;> simp_all [inFlight, Block.outValid]

/-- Where `in_ready` is 1 the block's step is a Pop. -/
theorem blockStep_pop (hr : s.block.inReady = true) : blockStep s = pop (popEffect s.config) s := by
  obtain ⟨i, hi⟩ := inFlight_of_inReady hr
  rw [blockStep_of_inFlight hi, exec_pop (inFlightRow_of_inFlight hi) hr]

/-- Where `out_valid` is 1 before `END` the block's step is an Emit. -/
theorem blockStep_emit (hv : s.block.outValid = true) (hp : s.block.phase ≠ .finish) :
    ∃ f, blockStep s = emitOr f (s.block.outData s.config) emitEffect s := by
  obtain ⟨i, hi⟩ := inFlight_of_outValid hv hp
  rw [blockStep_of_inFlight hi]
  exact exec_emit (inFlightRow_of_inFlight hi) hv

theorem blockStep_idle_nil (hp : s.block.phase = .idle) (hc : s.commands = []) :
    blockStep s = .next s := by
  simp only [blockStep, inFlight, hp, takeCommand, hc, if_true]

theorem blockStep_idle_ok {rest : List Word} (hp : s.block.phase = .idle) (hc : s.commands = w :: rest)
    (hd : decode w = .ok i) : blockStep s = exec i { s with commands := rest } := by
  simp only [blockStep, inFlight, hp, takeCommand, hc, hd, if_true]
  rfl

/-- Settles O16: in `IDLE` the oldest offered word is taken and its command run. -/
theorem stepRunsDecodedCommand : Obligations.StepRunsDecodedCommand := by
  intro s w rest i hmoves hp hc hd
  exact (step_of_blockMoves hmoves).trans (blockStep_idle_ok hp hc hd)

/-- Settles O17: the block's turn is a step of the command in flight. -/
theorem stepRunsCommandInFlight : Obligations.StepRunsCommandInFlight := by
  intro s i hmoves hflight
  exact (step_of_blockMoves hmoves).trans (blockStep_of_inFlight hflight)

/-- A word numbered as the table numbers it is the word itself (R90). -/
theorem ofNat_toNat_mod (w : Word) : BitVec.ofNat 32 (w.toNat % 2 ^ 32) = w := by
  rw [Nat.mod_eq_of_lt w.isLt, BitVec.ofNat_toNat, BitVec.setWidth_eq]

/-- Settles O18: `withFetchWord` makes it the block's turn in `IDLE`, with the word offered first. -/
theorem fetchedWordRunsNext : Obligations.FetchedWordRunsNext := by
  intro s w i hdecode
  refine ⟨by rw [decodeTableWord, ofNat_toNat_mod, hdecode]; rfl, ?_⟩
  exact stepRunsDecodedCommand (s.withFetchWord 32 w.toNat) w s.commands i rfl rfl
    (by rw [State.withFetchWord, ofNat_toNat_mod]) hdecode

/-- The block holds where it is due to accept, pop or emit and cannot (R65, R266). -/
theorem blockStep_hold
    (h : (s.block.cmdReady = true ∧ s.commands = []) ∨ (s.block.inReady = true ∧ s.input = []) ∨
      (s.block.outValid = true ∧ s.sinkReady = false)) : blockStep s = .next s := by
  obtain ⟨hready, hnil⟩ | ⟨hready, hnil⟩ | ⟨hvalid, hsink⟩ := h
  · exact blockStep_idle_nil (Block.cmdReady_iff.mp hready) hnil
  · rw [blockStep_pop hready, pop_nil hnil]
  · by_cases hp : s.block.phase = .finish
    · rw [blockStep_finish hp, endStep, hsink]; rfl
    · obtain ⟨f, e⟩ := blockStep_emit hvalid hp
      rw [e, emitOr_not_ready hsink]

/-- Settles O20: on its turn a block that cannot move uses the turn up. -/
theorem blockHoldsWhileItWaits : Obligations.BlockHoldsWhileItWaits := by
  intro s hmoves hwaits
  exact (step_of_blockMoves hmoves).trans (blockStep_hold hwaits)

/-! ### Accept (R131) -/

theorem decode_error_of_illegal (h : legal w = false) : ∃ r, decode w = .error r := by
  cases hd : decode w with
  | error r => exact ⟨r, rfl⟩
  | ok i => exact absurd ((decode_ok_iff_legal w).mp ⟨i, hd⟩) (by simp [h])

/-- Accept of an illegal word, `normalise()` and the exception entry carried out (R234, R236). -/
theorem blockStep_idle_illegal {rest : List Word} (hp : s.block.phase = .idle)
    (hc : s.commands = w :: rest) (h : legal w = false) :
    blockStep s = .next
      { s with
        commands := rest
        block := (raiseException .illegalCmd w (s.block.latchCommand w)).setPhase .finish } := by
  obtain ⟨r, hd⟩ := decode_error_of_illegal h
  simp only [blockStep, inFlight, hp, takeCommand, hc, hd, if_true, acceptIllegal]
  rw [normalise_finish rfl]
  rfl

/-- Settles O21: the exception entry, written out. -/
theorem illegalWordRaisesIllegalCmd : Obligations.IllegalWordRaisesIllegalCmd := by
  intro s w rest hmoves hp hc hillegal
  rw [step_of_blockMoves hmoves, blockStep_idle_illegal (by exact hp) (by exact hc) hillegal,
    raiseException_eq]
  rfl

/-- The phase a command rests in after its Accept: the first that has work (R131, R140). -/
def startPhase (c : Config) : Instr → Phase
  | .decomp _ => .dec
  | .enc count => if count = 0 then .finish else .enc
  | .burst _ => if c.repeatNum = 0 then .finish else .burst
  | .frame _ _ _ _ => .fLead

/-- `normalise()` passes over the first phase of a command only where it has no work. -/
theorem normalise_start (c : Config) (b : Block) (i : Instr) :
    normalise c ((b.latchCommand (encode i)).setPhase (firstPhase i)) =
      (b.latchCommand (encode i)).setPhase (startPhase c i) := by
  cases i with
  | decomp code =>
    rw [normalise_dec rfl]
    rfl
  | enc count =>
    rw [normalise_enc rfl, startPhase]
    by_cases hcount : count = 0
    · subst hcount
      rw [if_pos ⟨rfl, by simp⟩]
      rfl
    · rw [if_neg fun h => hcount (BitVec.eq_of_toNat_eq (by simpa using h.2.symm)), if_neg hcount]
      rfl
  | burst code =>
    rw [normalise_burst rfl, startPhase]
    by_cases hrep : c.repeatNum = 0
    · rw [if_pos (by simp [hrep]), if_pos hrep]
      rfl
    · rw [if_neg (by simpa using Ne.symm hrep), if_neg (by simp [repLen_eq]), if_neg hrep]
      rfl
  | frame prelen paylen hdr csum =>
    rw [normalise_fLead rfl rfl]
    rfl

/-- Settles O22: the Accept of any command, `normalise()` carried out. -/
theorem acceptStartsTheCommand : Obligations.AcceptStartsTheCommand := by
  intro i s hp
  rw [exec_idle hp, normalise_start]
  cases i <;> rfl

end Sys2Proof.Machine
end

section
/-! PROOFS. Every Pop and Emit of the four commands (O23, O25 to O29, O33, O36 to O40): what it does before `normalise()`
is the Pop or Emit of its phase, and `normalise()` leaves the phase when the count comes to its limit (R133). -/

namespace Sys2Proof.Machine

variable {c : Config} {b : Block} {s : State}

/-! ### Counting (R25, R27) -/

/-- A counter below a bound of 16 bits does not wrap. -/
theorem toNat_add_one_of_lt {x : Half} {n : Nat} (h : x.toNat < n) (hn : n ≤ 65535) :
    (x + 1).toNat = x.toNat + 1 := by
  bv_omega

theorem byte_toNat_le (v : Byte) : v.toNat ≤ 65535 := by
  have := v.isLt
  omega

theorem half_toNat_le (x : Half) : x.toNat ≤ 65535 := by
  have := x.isLt
  omega

theorem setPhase_of_phase {p : Phase} (h : b.phase = p) : b.setPhase p = b := by
  subst h; rfl

/-- A phase that ends the command or stays. -/
theorem ite_setPhase_finish {p : Phase} (h : b.phase = p) (P : Prop) [Decidable P] :
    (if P then b.setPhase .finish else b) = b.setPhase (if P then .finish else p) := by
  split
  · rfl
  · exact (setPhase_of_phase h).symm

/-! ### What a Pop and an Emit do, by phase (R134, R135) -/

theorem popEffect_enc (hp : b.phase = .enc) (v : Byte) : popEffect c v b = takeSymbol c v b := by
  simp only [popEffect, hp]

theorem popEffect_eDrain (hp : b.phase = .eDrain) (v : Byte) : popEffect c v b = b.countUp := by
  simp only [popEffect, hp]

theorem popEffect_frame (hp : b.phase = .fPre ∨ b.phase = .fPay) (v : Byte) :
    popEffect c v b = b.latchByte v := by
  obtain hp | hp := hp <;> simp only [popEffect, hp]

theorem emitEffect_enc (hp : b.phase = .enc) : emitEffect b = b.nextChip := by
  simp only [emitEffect, hp]

theorem emitEffect_fPre (hp : b.phase = .fPre) : emitEffect b = b.releaseByte := by
  simp only [emitEffect, hp]

theorem emitEffect_fPay (hp : b.phase = .fPay) : emitEffect b = b.releasePayloadByte := by
  simp only [emitEffect, hp]

/-- The phases whose Emit takes its element from no popped byte: it is counted, and that is all. -/
def Phase.Counts (p : Phase) : Prop := p ∈ [Phase.dec, .burst, .fLead, .fHdr, .fCsum, .fTrail]

theorem emitEffect_counts (hp : b.phase.Counts) : emitEffect b = b.countUp := by
  unfold Phase.Counts at hp
  cases h : b.phase <;> simp_all [emitEffect]

theorem outValid_of_counts (hp : b.phase.Counts) : b.outValid = true := by
  unfold Phase.Counts at hp
  cases h : b.phase <;> simp_all [Block.outValid]

/-! ### DECOMP (R160) -/

/-- The bit on `out_data` in `DEC` (R161). -/
theorem outData_dec (hp : b.phase = .dec) (h : b.cnt.toNat < 8) :
    b.outData c = some (zext8 (Reference.bit (codeField b.cmd).toNat b.cnt.toNat)) := by
  simp only [Block.outData, hp]
  rw [bit_eq_some (by omega), Option.map_some]

/-- Settles O23: bit `CNT` stands on `out_data`, and the eighth count completes `DEC`. -/
theorem decompEmitsOneBit : Obligations.DecompEmitsOneBit := by
  intro code s hp hcnt hready
  have height : (s.block.cnt + 1).toNat = 8 ↔ s.block.cnt = 7 := by bv_omega
  rw [exec_emit_some (inFlightRow_decomp hp code) (by simp [Block.outValid, hp]) hready
    (outData_dec hp hcnt), zext8_eq_ofNat, reference_bit_toNat]
  rw [emitEffect_counts (by simp [Phase.Counts, hp]), normalise_dec (b := s.block.countUp) hp,
    Block.countUp_cnt, if_congr height rfl rfl, ite_setPhase_finish (b := s.block.countUp) hp]
  rfl

/-! ### ENC (R172 to R176) -/

theorem takeSymbol_valid {v : Byte} (h : v = 0 ∨ v = 1) : takeSymbol c v b = b.latchSymbol v :=
  if_pos (validSymbol_iff.mpr h)

theorem validSymbol_eq_false {v : Byte} (h : 1 < v.toNat) : validSymbol v = false := by
  refine Bool.eq_false_iff.mpr fun hv => ?_
  obtain rfl | rfl := validSymbol_iff.mp hv <;> exact absurd h (by decide)

theorem takeSymbol_skip {v : Byte} (h : 1 < v.toNat) (hskip : c.skipBadSymbol = true) :
    takeSymbol c v b = b.skipSymbol := by
  simp only [takeSymbol, validSymbol_eq_false h, hskip, if_true, Bool.false_eq_true, if_false]

theorem takeSymbol_reject {v : Byte} (h : 1 < v.toNat) (hskip : c.skipBadSymbol = false) :
    takeSymbol c v b = rejectSymbol v b := by
  simp only [takeSymbol, validSymbol_eq_false h, hskip, Bool.false_eq_true, if_false]

/-- The information word of an invalid symbol as a number (R107). -/
theorem symbolInfo_eq (index : Half) (v : Byte) :
    symbolInfo index v = BitVec.ofNat 32 (index.toNat * 256 + v.toNat) := by
  have hi := index.isLt
  have hv := v.isLt
  have hshift : (index.setWidth 32 <<< 8).toNat = index.toNat * 256 := by
    simp [Nat.shiftLeft_eq]; omega
  refine BitVec.eq_of_toNat_eq ?_
  rw [symbolInfo, or_toNat_of_lt _ _ 8 index.toNat (by omega) (by simp; omega), hshift]
  simp; omega

/-- Settles O25: a held byte keeps `normalise()` in `ENC`. -/
theorem encPopLatchesValidSymbol : Obligations.EncPopLatchesValidSymbol := by
  intro count s v rest hp hb hi hv
  rw [exec_pop_cons (inFlightRow_enc (.inl hp) count) (Block.inReady_iff.mpr ⟨.inl hp, hb⟩) hi,
    popEffect_enc hp, takeSymbol_valid hv, normalise_have (b := s.block.latchSymbol v) (.inl hp) rfl]
  rfl

theorem normalise_rejectSymbol (hcnt : b.cnt.toNat < (countField b.cmd).toNat) (v : Byte) :
    normalise c (rejectSymbol v b) =
      (rejectSymbol v b).setPhase
        (if b.cnt.toNat + 1 = (countField b.cmd).toNat then .finish else .eDrain) := by
  have hcount : (rejectSymbol v b).cnt.toNat = b.cnt.toNat + 1 := by
    rw [rejectSymbol, raiseException_eq]
    exact toNat_add_one_of_lt hcnt (half_toNat_le _)
  have hcmd : (rejectSymbol v b).cmd = b.cmd := by rw [rejectSymbol, raiseException_eq]; rfl
  rw [normalise_eDrain rfl, hcount, hcmd, ite_setPhase_finish (p := .eDrain) rfl]

/-- Settles O26: the exception entry and the count, and what is left to drain. -/
theorem encPopRaisesOnInvalidSymbol : Obligations.EncPopRaisesOnInvalidSymbol := by
  intro count s v rest hp hb hi hv hcnt hskip
  rw [exec_pop_cons (inFlightRow_enc (.inl hp) count) (Block.inReady_iff.mpr ⟨.inl hp, hb⟩) hi,
    popEffect_enc hp, takeSymbol_reject hv hskip, normalise_rejectSymbol hcnt, rejectSymbol,
    raiseException_eq, symbolInfo_eq]
  rfl

theorem normalise_skipSymbol (hp : b.phase = .enc) (hb : b.haveByte = false)
    (hcnt : b.cnt.toNat < (countField b.cmd).toNat) :
    normalise c b.skipSymbol =
      b.skipSymbol.setPhase
        (if b.cnt.toNat + 1 = (countField b.cmd).toNat then .finish else .enc) := by
  rw [normalise_enc (b := b.skipSymbol) hp, Block.skipSymbol_haveByte, if_congr (and_iff_right hb) rfl rfl,
    ite_setPhase_finish (b := b.skipSymbol) hp, Block.skipSymbol_cnt,
    toNat_add_one_of_lt hcnt (half_toNat_le _), Block.skipSymbol_cmd]

/-- Settles O27: the warning and the count, and what is left to encode. -/
theorem encPopSkipsInvalidSymbol : Obligations.EncPopSkipsInvalidSymbol := by
  intro count s v rest hp hb hi hv hcnt hskip
  rw [exec_pop_cons (inFlightRow_enc (.inl hp) count) (Block.inReady_iff.mpr ⟨.inl hp, hb⟩) hi,
    popEffect_enc hp, takeSymbol_skip hv hskip, normalise_skipSymbol hp hb hcnt]
  rfl

theorem zext8_eq_ite (b : Chip) : zext8 b = if b = 1 then 0x01 else 0x00 := by
  obtain rfl | rfl : b = 0 ∨ b = 1 := by bv_omega
  all_goals rfl

/-- The chip on `out_data` in `ENC`, where the held symbol has a codeword (R173). -/
theorem outData_enc {x : Symbol} (hp : b.phase = .enc) (hb : b.haveByte = true)
    (hx : Symbol.ofNumber b.sym.toNat = some x) :
    b.outData c = some (zext8 (cwChip x b.chip.toFin)) := by
  simp [Block.outData, hp, hb, encChip, hx]

/-- Counting a symbol whose codeword is complete (R173). -/
theorem normalise_symbolUsed (hp : b.phase = .enc) (hcnt : b.cnt.toNat < (countField b.cmd).toNat) :
    normalise c { b with chip := 0, haveByte := false, cnt := b.cnt + 1 } =
      { b with
        chip := 0, haveByte := false, cnt := b.cnt + 1
        phase := if b.cnt.toNat + 1 = (countField b.cmd).toNat then .finish else .enc } := by
  have hb : ({ b with chip := 0, haveByte := false, cnt := b.cnt + 1 } : Block).phase = .enc := hp
  rw [normalise_enc hb, ite_setPhase_finish hb, toNat_add_one_of_lt hcnt (half_toNat_le _)]
  simp only [true_and]
  rfl

/-- Settles O28: a chip, and `normalise()` only where the codeword is complete. -/
theorem encEmitsOneChip : Obligations.EncEmitsOneChip := by
  intro count s x hp hb hready hsym hcnt
  have hx : Symbol.ofNumber s.block.sym.toNat = some x := by
    obtain ⟨h, rfl⟩ | ⟨h, rfl⟩ := hsym <;> rw [h] <;> rfl
  rw [exec_emit_some (inFlightRow_enc (.inl hp) count) (by simp [Block.outValid, hp, hb]) hready
    (outData_enc hp hb hx), zext8_eq_ite, emitEffect_enc hp, Block.nextChip]
  by_cases hchip : s.block.chip = 3
  · rw [if_pos hchip, if_pos hchip, normalise_symbolUsed hp hcnt]
  · rw [if_neg hchip, if_neg hchip, normalise_have (by exact .inl hp) (by exact hb)]

/-- Settles O29: the byte is counted, whatever it is. -/
theorem encDrainDiscardsOneByte : Obligations.EncDrainDiscardsOneByte := by
  intro count s v rest hp hb hi hcnt
  rw [exec_pop_cons (inFlightRow_enc (.inr hp) count) (Block.inReady_iff.mpr ⟨.inr (.inl hp), hb⟩) hi,
    popEffect_eDrain hp, normalise_eDrain (b := s.block.countUp) hp,
    ite_setPhase_finish (b := s.block.countUp) hp, Block.countUp_cnt, toNat_add_one_of_lt hcnt (half_toNat_le _)]
  rfl

/-! ### BURST (R180) -/

theorem repLen_le (h : c.Admissible) : c.repLen ≤ 65535 := by
  obtain ⟨-, hdead⟩ := h
  rw [repLen_eq]
  omega

/-- Counting a chip of a repetition: the last one steps `REP`, and the last of the last completes the burst. -/
theorem normalise_countUp_burst (hc : c.Admissible) (hp : b.phase = .burst)
    (hrep : b.rep.toNat < c.repeatNum) (hcnt : b.cnt.toNat < c.repLen) :
    normalise c b.countUp =
      if b.cnt.toNat + 1 = c.repLen then
        b.nextRepetition.setPhase (if b.rep.toNat + 1 = c.repeatNum then .finish else .burst)
      else b.countUp := by
  rw [normalise_burst (b := b.countUp) hp, Block.countUp_rep, if_neg hrep.ne, Block.countUp_cnt,
    toNat_add_one_of_lt hcnt (repLen_le hc), toNat_add_one_of_lt hrep hc.1,
    ite_setPhase_finish (b := b.countUp.nextRepetition) hp]
  rfl

/-- Settles O33: the chip computed for `CNT` is the repetition's (O9). -/
theorem burstEmitsOneChip : Obligations.BurstEmitsOneChip := by
  intro code s chip hc hp hready hrep hcnt hchip
  have hdata : s.block.outData s.config = some (zext8 chip) := by
    simp only [Block.outData, hp]
    rw [burstChipIsTheRepetition, hchip, Option.map_some]
  rw [exec_emit_some (inFlightRow_burst hp code) (by simp [Block.outValid, hp]) hready hdata,
    zext8_eq_ofNat, emitEffect_counts (by simp [Phase.Counts, hp]), normalise_countUp_burst hc hp hrep hcnt]
  rfl

/-! ### FRAME (R202 to R205) -/

/-- Settles O36: a held byte keeps `normalise()` in its phase. -/
theorem framePopsOneByte : Obligations.FramePopsOneByte := by
  intro prelen paylen hdr csum s v rest hp hb hi
  have hrow : InFlightRow (.frame prelen paylen hdr csum) s.block :=
    inFlightRow_frame (by obtain hp | hp := hp <;> simp [hp]) _ _ _ _
  rw [exec_pop_cons hrow (Block.inReady_iff.mpr ⟨.inr (.inr hp), hb⟩) hi, popEffect_frame hp,
    normalise_have (b := s.block.latchByte v) (.inr hp) rfl]
  rfl

/-- Settles O37: the byte is used up, and the last leads past the parts that are empty. -/
theorem frameEmitsPreambleByte : Obligations.FrameEmitsPreambleByte := by
  intro prelen paylen hdr csum s hp hb hready hcnt
  rw [exec_emit_some (inFlightRow_frame (by simp [hp]) _ _ _ _) (by simp [Block.outValid, hp, hb]) hready
    (v := s.block.sym) (by simp [Block.outData, hp, hb]),
    emitEffect_fPre hp, normalise_fPre (b := s.block.releaseByte) hp rfl, Block.releaseByte_cnt,
    toNat_add_one_of_lt hcnt (byte_toNat_le _)]
  rfl

/-- The header read by position (R203). -/
theorem eq_headerByte {cnt : Half} {paylen v : Byte}
    (h : [0x00, paylen, 0x00, paylen][cnt.toNat]? = some v) : v = headerByte cnt paylen := by
  have hlt : cnt.toNat < 4 := (List.getElem?_eq_some_iff.mp h).1
  unfold headerByte
  interval_cases cnt.toNat <;> simp_all

/-- Settles O38: the header byte at `CNT`, and the fourth leads past the parts that are empty. -/
theorem frameEmitsHeaderByte : Obligations.FrameEmitsHeaderByte := by
  intro prelen paylen hdr csum s v hp hb hready hhdr hv
  obtain rfl := eq_headerByte hv
  have hfour : (hdrField s.block.cmd = false ∨ (s.block.cnt + 1).toNat = 4) ↔ s.block.cnt = 3 := by
    simp only [hhdr, Bool.true_eq_false, false_or]
    bv_omega
  rw [exec_emit_some (inFlightRow_frame (by simp [hp]) _ _ _ _) (by simp [Block.outValid, hp]) hready
    (v := headerByte s.block.cnt (paylenField s.block.cmd)) (by simp [Block.outData, hp]),
    emitEffect_counts (by simp [Phase.Counts, hp]), normalise_fHdr (b := s.block.countUp) hp hb,
    Block.countUp_cmd, Block.countUp_cnt, if_congr hfour rfl rfl]
  rfl

theorem addChecksum_eq (acc sym : Byte) :
    addChecksum acc sym = BitVec.ofNat 8 ((acc.toNat + sym.toNat) % 256) :=
  BitVec.eq_of_toNat_eq (by simp [addChecksum])

/-- Settles O39: the byte is summed and used up, and the last leads past the checksum where there is none. -/
theorem frameEmitsPayloadByte : Obligations.FrameEmitsPayloadByte := by
  intro prelen paylen hdr csum s hp hb hready hcnt
  rw [exec_emit_some (inFlightRow_frame (by simp [hp]) _ _ _ _) (by simp [Block.outValid, hp, hb]) hready
    (v := s.block.sym) (by simp [Block.outData, hp, hb]), ← addChecksum_eq,
    emitEffect_fPay hp, normalise_fPay (b := s.block.releasePayloadByte) hp rfl,
    Block.releasePayloadByte_cnt, toNat_add_one_of_lt hcnt (byte_toNat_le _)]
  rfl

/-- Settles O40: one count completes `F_CSUM`. -/
theorem frameEmitsChecksum : Obligations.FrameEmitsChecksum := by
  intro prelen paylen hdr csum s hp hcnt hready hcsum
  rw [exec_emit_some (inFlightRow_frame (by simp [hp]) _ _ _ _) (by simp [Block.outValid, hp]) hready
    (v := s.block.acc) (by simp [Block.outData, hp]),
    emitEffect_counts (by simp [Phase.Counts, hp]), normalise_fCsum (b := s.block.countUp) hp,
    if_pos (.inr (by simp [hcnt]))]
  rfl

end Sys2Proof.Machine
end

section
/-! PROOFS. What holds of every state and every step: the exit of `normalise()` (R133, O42), the order of the phases
(R140, O48), and which steps write which registers (O50 to O53). Each claim about a step goes by what the step can be: a
hold, an Accept, a Pop, an Emit or an End. -/

namespace Sys2Proof.Machine

variable {c : Config} {b : Block} {s t : State} {v : Byte}

/-! ### normalise() (R133) -/

/-- `normalise()` writes no register but `PHASE`, `REP` and `CNT`. -/
theorem normalise_frame (c : Config) (b : Block) :
    normalise c b =
      { b with
        phase := (normalise c b).phase, rep := (normalise c b).rep, cnt := (normalise c b).cnt } := by
  calc normalise c b
      = { normalise c b with
          cmd := (normalise c b).cmd, sym := (normalise c b).sym, acc := (normalise c b).acc
          chip := (normalise c b).chip, haveByte := (normalise c b).haveByte
          ecode := (normalise c b).ecode, err := (normalise c b).err, warn := (normalise c b).warn
          cause := (normalise c b).cause, einfo := (normalise c b).einfo } := rfl
    _ = _ := by
      simp only [normalise_cmd, normalise_sym, normalise_acc, normalise_chip, normalise_haveByte,
        normalise_ecode, normalise_err, normalise_warn, normalise_cause, normalise_einfo]

/-- Settles O42: every pass leaves fewer moves (`advance_normalise`), and none writes more than three registers. -/
theorem normaliseReachesItsExit : Obligations.NormaliseReachesItsExit := fun c b =>
  ⟨advance_normalise c b, fun h => h.elim normalise_idle normalise_finish, normalise_frame c b⟩

/-- Outside `BURST` no pass writes `REP` or leads into `BURST`. -/
theorem Pass.rep_of_not_burst {b' : Block} (h : Pass c b b') (hp : b.phase ≠ .burst) :
    b'.phase ≠ .burst ∧ b'.rep = b.rep := by
  cases h with
  | exit => exact ⟨hp, rfl⟩
  | finish => exact ⟨nofun, rfl⟩
  | enter p _ _ hne => exact ⟨hne.1, rfl⟩
  | repetition hburst => exact absurd hburst hp

theorem advanceTimes_rep (hp : b.phase ≠ .burst) (n : Nat) : (advanceTimes c n b).rep = b.rep := by
  induction n generalizing b with
  | zero => rfl
  | succ n ih =>
    obtain ⟨hp', hrep⟩ := (pass_advance c b).rep_of_not_burst hp
    rw [advanceTimes, ih hp', hrep]

theorem normalise_rep_of_not_burst (hp : b.phase ≠ .burst) : (normalise c b).rep = b.rep :=
  advanceTimes_rep hp 6

/-- `normalise()` writes `REP` only in `BURST`, and steps it there at most once. -/
theorem normalise_rep (c : Config) (b : Block) :
    (normalise c b).rep = b.rep ∨ (b.phase = .burst ∧ (normalise c b).rep = b.rep + 1) := by
  by_cases hp : b.phase = .burst
  · rw [normalise_burst hp]
    split
    · exact .inl rfl
    split
    · split <;> exact .inr ⟨hp, rfl⟩
    · exact .inl rfl
  · exact .inl (normalise_rep_of_not_burst hp)

theorem normalise_fLead_held (h : b.phase = .fLead) (hb : b.haveByte = true) :
    normalise c b = if b.cnt.toNat = 10 then b.enterPhase .fPre else b := by
  split
  · exact normalise_of_one_pass (by rw [advance, h]; exact if_pos ‹_›)
      (by rw [advance, Block.enterPhase_phase]; exact if_neg (by simp [hb]))
  · exact normalise_of_exit (by rw [advance, h]; exact if_neg ‹_›)

theorem normalise_fHdr_held (h : b.phase = .fHdr) (hb : b.haveByte = true) :
    normalise c b =
      if hdrField b.cmd = false ∨ b.cnt.toNat = 4 then b.enterPhase .fPay else b := by
  split
  · exact normalise_of_one_pass (by rw [advance, h]; exact if_pos ‹_›)
      (by rw [advance, Block.enterPhase_phase]; exact if_neg (by simp [hb]))
  · exact normalise_of_exit (by rw [advance, h]; exact if_neg ‹_›)

theorem afterPayload_mem (csum : Bool) : afterPayload csum ∈ [Phase.fCsum, .fTrail] := by
  cases csum <;> decide

theorem afterHeader_mem (paylen : Byte) (csum : Bool) :
    afterHeader paylen csum ∈ [Phase.fPay, .fCsum, .fTrail] := by
  unfold afterHeader
  split_ifs <;> decide

theorem afterPreamble_mem (paylen : Byte) (hdr csum : Bool) :
    afterPreamble paylen hdr csum ∈ [Phase.fHdr, .fPay, .fCsum, .fTrail] := by
  unfold afterPreamble
  split_ifs <;> decide

theorem afterSilence_mem (prelen paylen : Byte) (hdr csum : Bool) :
    afterSilence prelen paylen hdr csum ∈ [Phase.fPre, .fHdr, .fPay, .fCsum, .fTrail] := by
  unfold afterSilence
  split_ifs <;> decide

/-- The phase `normalise()` rests in, within a command, is its own or one that may follow it (R133, R140). -/
theorem normalise_phase_mem (c : Config) (b : Block) (hi : b.phase ≠ .idle) (hf : b.phase ≠ .finish) :
    (normalise c b).phase ∈ mayFollow c b.phase := by
  cases hp : b.phase
  case idle => exact absurd hp hi
  case finish => exact absurd hp hf
  case dec | burst | eDrain | fTrail =>
    simp only [normalise_dec, normalise_burst, normalise_eDrain, normalise_fTrail, hp]
    split_ifs <;> simp [mayFollow, hp]
  case enc =>
    rw [normalise_enc hp]
    cases hskip : c.skipBadSymbol <;> split <;> simp [mayFollow, hp, hskip]
  case fLead =>
    cases hb : b.haveByte
    · rw [normalise_fLead hp hb]
      split
      · exact List.mem_cons_of_mem _ (afterSilence_mem ..)
      · simp [mayFollow, hp]
    · rw [normalise_fLead_held hp hb]
      split <;> simp [mayFollow, hp]
  case fPre =>
    cases hb : b.haveByte
    · rw [normalise_fPre hp hb]
      split
      · exact List.mem_cons_of_mem _ (afterPreamble_mem ..)
      · simp [mayFollow, hp]
    · simp [normalise_have (.inr (.inl hp)) hb, mayFollow, hp]
  case fHdr =>
    cases hb : b.haveByte
    · rw [normalise_fHdr hp hb]
      split
      · exact List.mem_cons_of_mem _ (afterHeader_mem ..)
      · simp [mayFollow, hp]
    · rw [normalise_fHdr_held hp hb]
      split <;> simp [mayFollow, hp]
  case fPay =>
    cases hb : b.haveByte
    · rw [normalise_fPay hp hb]
      split
      · exact List.mem_cons_of_mem _ (afterPayload_mem ..)
      · simp [mayFollow, hp]
    · simp [normalise_have (.inr (.inr hp)) hb, mayFollow, hp]
  case fCsum =>
    rw [normalise_fCsum hp]
    split <;> simp [mayFollow, hp]

/-! ### What a Pop and an Emit can do -/

theorem rejectSymbol_eq (v : Byte) (b : Block) :
    rejectSymbol v b =
      { b with
        phase := .eDrain, cnt := b.cnt + 1, err := true, ecode := 0x01
        cause := if b.err then b.cause else 0x01
        einfo := if b.err then b.einfo else BitVec.ofNat 32 (b.cnt.toNat * 256 + v.toNat) } := by
  rw [rejectSymbol, raiseException_eq, symbolInfo_eq]
  rfl

@[simp] theorem rejectSymbol_cmd (v : Byte) (b : Block) : (rejectSymbol v b).cmd = b.cmd := by
  rw [rejectSymbol_eq]

@[simp] theorem rejectSymbol_cnt (v : Byte) (b : Block) : (rejectSymbol v b).cnt = b.cnt + 1 := by
  rw [rejectSymbol_eq]

@[simp] theorem rejectSymbol_haveByte (v : Byte) (b : Block) :
    (rejectSymbol v b).haveByte = b.haveByte := by
  rw [rejectSymbol_eq]

/-- A Pop, by phase and by the byte (R172, R174 to R176, R202, R204). -/
inductive Popped (c : Config) (v : Byte) (b : Block) : Block → Prop
  | latch (hp : b.phase = .enc) (hv : v = 0 ∨ v = 1) : Popped c v b (b.latchSymbol v)
  | skip (hp : b.phase = .enc) (hv : 1 < v.toNat) (hskip : c.skipBadSymbol = true) :
    Popped c v b b.skipSymbol
  | reject (hp : b.phase = .enc) (hv : 1 < v.toNat) (hskip : c.skipBadSymbol = false) :
    Popped c v b (rejectSymbol v b)
  | drain (hp : b.phase = .eDrain) : Popped c v b b.countUp
  | hold (hp : b.phase = .fPre ∨ b.phase = .fPay) : Popped c v b (b.latchByte v)

theorem popped (hr : b.inReady = true) (c : Config) (v : Byte) : Popped c v b (popEffect c v b) := by
  obtain ⟨hp | hp | hp, -⟩ := Block.inReady_iff.mp hr
  · rw [popEffect_enc hp]
    by_cases hv : 1 < v.toNat
    · cases hskip : c.skipBadSymbol
      · rw [takeSymbol_reject hv hskip]; exact .reject hp hv hskip
      · rw [takeSymbol_skip hv hskip]; exact .skip hp hv hskip
    · have hv : v = 0 ∨ v = 1 := by bv_omega
      rw [takeSymbol_valid hv]; exact .latch hp hv
  · rw [popEffect_eDrain hp]; exact .drain hp
  · rw [popEffect_frame hp]; exact .hold hp

/-- An Emit, by phase (R160, R173, R180, R201 to R206). -/
inductive Emitted (b : Block) : Block → Prop
  | chip (hp : b.phase = .enc) (hb : b.haveByte = true) : Emitted b b.nextChip
  | preamble (hp : b.phase = .fPre) (hb : b.haveByte = true) : Emitted b b.releaseByte
  | payload (hp : b.phase = .fPay) (hb : b.haveByte = true) : Emitted b b.releasePayloadByte
  | count (hp : b.phase.Counts) : Emitted b b.countUp

theorem emitted (hv : b.outValid = true) (hp : b.phase ≠ .finish) : Emitted b (emitEffect b) := by
  cases hb : b.phase
  case enc => rw [emitEffect_enc hb]; exact .chip hb (by simpa [Block.outValid, hb] using hv)
  case fPre => rw [emitEffect_fPre hb]; exact .preamble hb (by simpa [Block.outValid, hb] using hv)
  case fPay => rw [emitEffect_fPay hb]; exact .payload hb (by simpa [Block.outValid, hb] using hv)
  case idle | eDrain => simp [Block.outValid, hb] at hv
  case finish => exact absurd hb hp
  all_goals
    have hcounts : b.phase.Counts := by simp [Phase.Counts, hb]
    rw [emitEffect_counts hcounts]
    exact .count hcounts

/-! ### The order of the phases (R140, O48) -/

theorem Popped.phase_eq {b' : Block} (h : Popped c v b b') :
    b'.phase = b.phase ∨ (b.phase = .enc ∧ c.skipBadSymbol = false ∧ b'.phase = .eDrain) := by
  cases h with
  | reject hp _ hskip => exact .inr ⟨hp, hskip, by rw [rejectSymbol_eq]⟩
  | latch | skip | drain | hold => exact .inl rfl

theorem nextChip_eq (b : Block) :
    b.nextChip =
      { b with
        chip := if b.chip = 3 then 0 else b.chip + 1
        haveByte := if b.chip = 3 then false else b.haveByte
        cnt := if b.chip = 3 then b.cnt + 1 else b.cnt } := by
  unfold Block.nextChip
  split <;> rfl

theorem Emitted.phase_eq {b' : Block} (h : Emitted b b') : b'.phase = b.phase := by
  cases h with
  | chip => rw [nextChip_eq]
  | preamble | payload | count => rfl

theorem startPhase_mem (c : Config) (i : Instr) : startPhase c i ∈ mayFollow c .idle := by
  cases i <;> simp only [startPhase]
  case decomp | frame => simp [mayFollow]
  case enc | burst => split <;> simp [mayFollow]

/-- A move of a busy block leads to a phase that may follow (R140). -/
theorem Moved.phase_mem (h : Moved s t) (hbusy : s.block.phase ≠ .idle) :
    t.block.phase ∈ mayFollow s.config s.block.phase := by
  cases h with
  | accept _ hp => exact absurd hp hbusy
  | pop v _ hr =>
    obtain hphase | ⟨hp, hskip, hphase⟩ := (popped hr s.config v).phase_eq
    · have hfin : s.block.phase ≠ .finish := fun h => by simp [Block.inReady, h] at hr
      rw [← hphase] at hbusy hfin ⊢
      exact normalise_phase_mem _ _ hbusy hfin
    · have hdrain := normalise_phase_mem s.config _ (by rw [hphase]; nofun) (by rw [hphase]; nofun)
      rw [hphase] at hdrain
      simp only [mayFollow, hp, hskip] at hdrain ⊢
      exact List.mem_cons_of_mem _ hdrain
  | emit _ hv hfin =>
    have hphase := (emitted hv hfin).phase_eq
    rw [← hphase] at hbusy hfin ⊢
    exact normalise_phase_mem _ _ hbusy hfin
  | done hp => simp [mayFollow, hp]

theorem mem_mayFollow_self (c : Config) (p : Phase) : p ∈ mayFollow c p := by
  cases p
  case enc => cases hskip : c.skipBadSymbol <;> simp [mayFollow, hskip]
  all_goals simp [mayFollow]

theorem blockStep_phase_mem (h : blockStep s = .next t) :
    t.block.phase ∈ mayFollow s.config s.block.phase := by
  obtain ⟨rfl, -⟩ | ⟨hbusy, hmoved⟩ | ⟨w, rest, hp, -, ⟨i, -, rfl⟩ | ⟨-, rfl⟩⟩ := blockStep_cases h
  · exact mem_mayFollow_self ..
  · exact hmoved.phase_mem hbusy
  · rw [hp]
    simp only [normalise_start]
    exact startPhase_mem ..
  · rw [hp, normalise_finish rfl]
    simp [mayFollow]

theorem blockStep_of_step (hmoves : s.BlockMoves) (h : step s = .next t) :
    blockStep { s with schedule := s.schedule.tail } = .next t :=
  step_of_blockMoves hmoves ▸ h

/-- Settles O48: whatever the block's step is, the phase it rests in may follow. -/
theorem phasesFollowTheirOrder : Obligations.PhasesFollowTheirOrder := fun s _ hmoves hstep =>
  blockStep_phase_mem (s := { s with schedule := s.schedule.tail }) (blockStep_of_step hmoves hstep)

/-! ### Which step writes which register (R21 to R28, O50) -/

/-- What a step may do to `CMD`, `SYM`, `ACC`, `REP` and `CHIP`. -/
def RegistersKept (s t : State) : Prop :=
  (t.block.cmd ≠ s.block.cmd → s.block.phase = .idle ∧ s.commands.head? = some t.block.cmd) ∧
  (t.block.sym ≠ s.block.sym → s.block.inReady = true ∧ s.input.head? = some t.block.sym) ∧
  (t.block.acc ≠ s.block.acc →
    (s.block.phase = .idle ∧ t.block.acc = 0) ∨
      (s.block.phase = .fPay ∧ s.block.haveByte = true ∧ t.block.acc = s.block.acc + s.block.sym)) ∧
  (t.block.rep ≠ s.block.rep →
    (s.block.phase = .idle ∧ t.block.rep = 0) ∨
      (s.block.phase = .burst ∧ t.block.rep = s.block.rep + 1)) ∧
  (t.block.chip ≠ s.block.chip →
    (s.block.phase = .idle ∧ t.block.chip = 0) ∨ s.block.phase = .enc)

theorem Popped.registers {b' : Block} (h : Popped c v b b') :
    b'.cmd = b.cmd ∧ (b'.sym = b.sym ∨ b'.sym = v) ∧ b'.acc = b.acc ∧
      (b'.phase ≠ .burst ∧ b'.rep = b.rep) ∧ (b'.chip = b.chip ∨ b.phase = .enc) := by
  cases h with
  | reject => rw [rejectSymbol_eq]; exact ⟨rfl, .inl rfl, rfl, ⟨nofun, rfl⟩, .inl rfl⟩
  | latch hp => exact ⟨rfl, .inr rfl, rfl, ⟨by simp [hp], rfl⟩, .inr hp⟩
  | hold hp =>
    have hburst : b.phase ≠ .burst := by obtain hp | hp := hp <;> simp [hp]
    exact ⟨rfl, .inr rfl, rfl, ⟨hburst, rfl⟩, .inl rfl⟩
  | skip hp | drain hp => exact ⟨rfl, .inl rfl, rfl, ⟨by simp [hp], rfl⟩, .inl rfl⟩

theorem Emitted.registers {b' : Block} (h : Emitted b b') :
    b'.cmd = b.cmd ∧ b'.sym = b.sym ∧
      (b'.acc = b.acc ∨ (b.phase = .fPay ∧ b.haveByte = true ∧ b'.acc = b.acc + b.sym)) ∧
      b'.rep = b.rep ∧ (b'.chip = b.chip ∨ b.phase = .enc) := by
  cases h with
  | chip hp => rw [nextChip_eq]; exact ⟨rfl, rfl, .inl rfl, rfl, .inr hp⟩
  | payload hp hb => exact ⟨rfl, rfl, .inr ⟨hp, hb, rfl⟩, rfl, .inl rfl⟩
  | preamble | count => exact ⟨rfl, rfl, .inl rfl, rfl, .inl rfl⟩

/-- A move of a busy block writes `CMD` never and the other registers as stated. -/
theorem Moved.registersKept (h : Moved s t) (hbusy : s.block.phase ≠ .idle) : RegistersKept s t := by
  cases h with
  | accept _ hp => exact absurd hp hbusy
  | pop v rest hr hi =>
    obtain ⟨hcmd, hsym, hacc, ⟨hburst, hrep⟩, hchip⟩ := (popped hr s.config v).registers
    refine ⟨fun h => absurd (normalise_cmd.trans hcmd) h, fun h => ⟨hr, ?_⟩,
      fun h => absurd (normalise_acc.trans hacc) h,
      fun h => absurd ((normalise_rep_of_not_burst hburst).trans hrep) h,
      fun h => .inr (hchip.resolve_left fun e => h (normalise_chip.trans e))⟩
    have hsym : (popEffect s.config v s.block).sym = v :=
      hsym.resolve_left fun e => h (normalise_sym.trans e)
    simp [hi, hsym]
  | emit v hv hfin =>
    obtain ⟨hcmd, hsym, hacc, hrep, hchip⟩ := (emitted hv hfin).registers
    have hphase := (emitted hv hfin).phase_eq
    refine ⟨fun h => absurd (normalise_cmd.trans hcmd) h, fun h => absurd (normalise_sym.trans hsym) h,
      fun h => .inr ?_, fun h => .inr ?_,
      fun h => .inr (hchip.resolve_left fun e => h (normalise_chip.trans e))⟩
    · obtain ⟨hp, hb, e⟩ := hacc.resolve_left fun e => h (normalise_acc.trans e)
      exact ⟨hp, hb, normalise_acc.trans e⟩
    · obtain ⟨hp, e⟩ := (normalise_rep s.config (emitEffect s.block)).resolve_left
        fun e => h (e.trans hrep)
      exact ⟨hphase ▸ hp, e.trans (by rw [hrep])⟩
  | done => simp [RegistersKept]

theorem blockStep_registersKept (h : blockStep s = .next t) : RegistersKept s t := by
  obtain ⟨rfl, -⟩ | ⟨hbusy, hmoved⟩ | ⟨w, rest, hp, hc, ⟨i, hd, rfl⟩ | ⟨-, rfl⟩⟩ := blockStep_cases h
  · simp [RegistersKept]
  · exact hmoved.registersKept hbusy
  · obtain rfl := encodeOfDecodedIsTheWord w i hd
    simp only [normalise_start]
    exact ⟨fun _ => ⟨hp, by rw [hc]; rfl⟩, fun h => absurd rfl h, fun _ => .inl ⟨hp, rfl⟩,
      fun _ => .inl ⟨hp, rfl⟩, fun _ => .inl ⟨hp, rfl⟩⟩
  · rw [normalise_finish rfl, raiseException_eq]
    exact ⟨fun _ => ⟨hp, by rw [hc]; rfl⟩, fun h => absurd rfl h, fun _ => .inl ⟨hp, rfl⟩,
      fun _ => .inl ⟨hp, rfl⟩, fun _ => .inl ⟨hp, rfl⟩⟩

/-- Settles O50: `normalise()` writes `REP` only in `BURST`, and the rest is each step's own. -/
theorem registersChangeOnlyInTheirSteps : Obligations.RegistersChangeOnlyInTheirSteps :=
  fun s _ hmoves hstep =>
    blockStep_registersKept (s := { s with schedule := s.schedule.tail }) (blockStep_of_step hmoves hstep)

/-! ### The status registers (R30, R31, R231, R237, O51 to O53) -/

theorem Popped.status {b' : Block} (h : Popped c v b b') :
    (b'.err = b.err ∧ b'.cause = b.cause ∧ b'.einfo = b.einfo) ∨
      (b.phase = .enc ∧ 1 < v.toNat ∧ b'.err = true ∧ b'.ecode = 0x01 ∧
        b'.cause = (if b.err then b.cause else 0x01) ∧
        b'.einfo =
          if b.err then b.einfo else BitVec.ofNat 32 (b.cnt.toNat * 256 + v.toNat)) := by
  cases h with
  | reject hp hv => rw [rejectSymbol_eq]; exact .inr ⟨hp, hv, rfl, rfl, rfl, rfl⟩
  | latch | skip | drain | hold => exact .inl ⟨rfl, rfl, rfl⟩

theorem Popped.warn {b' : Block} (h : Popped c v b b') :
    b'.warn = b.warn ∨ (c.skipBadSymbol = true ∧ b.phase = .enc ∧ 1 < v.toNat ∧ b'.warn = true) := by
  cases h with
  | reject => rw [rejectSymbol_eq]; exact .inl rfl
  | skip hp hv hskip => exact .inr ⟨hskip, hp, hv, rfl⟩
  | latch | drain | hold => exact .inl rfl

theorem Emitted.status {b' : Block} (h : Emitted b b') :
    b'.err = b.err ∧ b'.warn = b.warn ∧ b'.cause = b.cause ∧ b'.einfo = b.einfo ∧ b'.ecode = b.ecode := by
  cases h with
  | chip => rw [nextChip_eq]; exact ⟨rfl, rfl, rfl, rfl, rfl⟩
  | preamble | payload | count => exact ⟨rfl, rfl, rfl, rfl, rfl⟩

/-- What a step may do to `ERR`, `CAUSE` and `EINFO` (R236). -/
inductive Captures (s t : State) : Prop
  /-- No exception, or none that is captured. -/
  | kept (herr : t.block.err = s.block.err) (hcause : t.block.cause = s.block.cause)
    (heinfo : t.block.einfo = s.block.einfo)
  /-- The first exception since reset. -/
  | captured (herr : s.block.err = false) (hcause : t.block.cause = t.block.ecode)
    (hinfo : (t.block.cause = 0x02 ∧ s.block.phase = .idle ∧ t.block.einfo = t.block.cmd) ∨
      (t.block.cause = 0x01 ∧ s.block.phase = .enc ∧
        ∃ v rest, s.input = v :: rest ∧ 1 < v.toNat ∧
          t.block.einfo = BitVec.ofNat 32 (s.block.cnt.toNat * 256 + v.toNat)))
    (herr' : t.block.err = true)

theorem Moved.captures (h : Moved s t) : Captures s t := by
  cases h with
  | accept i => simp only [normalise_start]; exact .kept rfl rfl rfl
  | pop v rest hr hi =>
    obtain ⟨herr, hcause, heinfo⟩ | ⟨hp, hv, herr, hecode, hcause, heinfo⟩ :=
      (popped hr s.config v).status
    · exact .kept (normalise_err.trans herr) (normalise_cause.trans hcause)
        (normalise_einfo.trans heinfo)
    · cases hs : s.block.err <;> simp only [hs, if_true, Bool.false_eq_true, if_false] at hcause heinfo
      · refine .captured hs ?_ (.inr ⟨normalise_cause.trans hcause, hp, v, rest, hi, hv, ?_⟩) ?_
        · exact (normalise_cause.trans hcause).trans (normalise_ecode.trans hecode).symm
        · exact normalise_einfo.trans heinfo
        · exact normalise_err.trans herr
      · exact .kept ((normalise_err.trans herr).trans hs.symm) (normalise_cause.trans hcause)
          (normalise_einfo.trans heinfo)
  | emit v hv hfin =>
    obtain ⟨herr, -, hcause, heinfo, -⟩ := (emitted hv hfin).status
    exact .kept (normalise_err.trans herr) (normalise_cause.trans hcause) (normalise_einfo.trans heinfo)
  | done => exact .kept rfl rfl rfl

theorem blockStep_captures (h : blockStep s = .next t) : Captures s t := by
  obtain ⟨rfl, -⟩ | ⟨-, hmoved⟩ | ⟨w, rest, hp, -, ⟨i, -, rfl⟩ | ⟨-, rfl⟩⟩ := blockStep_cases h
  · exact .kept rfl rfl rfl
  · exact hmoved.captures
  · simp only [normalise_start]; exact .kept rfl rfl rfl
  · rw [normalise_finish rfl, raiseException_eq]
    cases hs : s.block.err
    · exact .captured hs (by simp [hs]) (.inl ⟨by simp [hs, Cause.code], hp, by simp [hs]⟩) rfl
    · exact .kept hs.symm (by simp [hs]) (by simp [hs])

/-- Settles O51: a step captures the first exception since reset, or leaves the capture alone. -/
theorem firstExceptionIsKept : Obligations.FirstExceptionIsKept := by
  intro s t hmoves hstep
  have hcapture : Captures s t := by
    cases blockStep_captures (s := { s with schedule := s.schedule.tail })
      (blockStep_of_step hmoves hstep) with
    | kept herr hcause heinfo => exact .kept herr hcause heinfo
    | captured herr hcause hinfo herr' => exact .captured herr hcause hinfo herr'
  cases hcapture with
  | kept herr hcause heinfo =>
    exact ⟨fun h => ⟨herr.trans h, hcause, heinfo⟩, fun h h' => absurd (herr.symm.trans h') (by simp [h]),
      fun _ _ => ⟨hcause, heinfo⟩⟩
  | captured herr hcause hinfo herr' =>
    exact ⟨fun h => absurd (herr.symm.trans h) nofun, fun _ _ => ⟨hcause, hinfo⟩,
      fun _ h => absurd (h.symm.trans herr') nofun⟩

/-- What a step may do to `WARN` (R31). -/
theorem blockStep_warn (h : blockStep s = .next t) :
    t.block.warn = s.block.warn ∨
      (s.config.skipBadSymbol = true ∧ s.block.phase = .enc ∧ s.block.haveByte = false ∧
        (∃ v rest, s.input = v :: rest ∧ 1 < v.toNat) ∧ t.block.warn = true) := by
  obtain ⟨rfl, -⟩ | ⟨-, hmoved⟩ | ⟨w, rest, hp, -, ⟨i, -, rfl⟩ | ⟨-, rfl⟩⟩ := blockStep_cases h
  · exact .inl rfl
  · cases hmoved with
    | accept => exact .inl normalise_warn
    | pop v rest hr hi =>
      refine (popped hr s.config v).warn.imp normalise_warn.trans ?_
      rintro ⟨hskip, hp, hv, hwarn⟩
      exact ⟨hskip, hp, (Block.inReady_iff.mp hr).2, ⟨v, rest, hi, hv⟩, normalise_warn.trans hwarn⟩
    | emit v hv hfin =>
      obtain ⟨-, hwarn, -⟩ := (emitted hv hfin).status
      exact .inl (normalise_warn.trans hwarn)
    | done => exact .inl rfl
  · exact .inl normalise_warn
  · exact .inl (normalise_warn.trans (by rw [raiseException_eq]; rfl))

/-- Settles O52: `WARN` is kept, or set by a Pop that skips. -/
theorem warnIsSetOnlyBySkipping : Obligations.WarnIsSetOnlyBySkipping := by
  intro s t hmoves hstep
  obtain hwarn | ⟨hskip, hp, hb, hinput, hwarn⟩ :=
    blockStep_warn (s := { s with schedule := s.schedule.tail }) (blockStep_of_step hmoves hstep)
  · exact ⟨hwarn.trans, fun h h' => absurd (hwarn.symm.trans h') (by simp [h])⟩
  · exact ⟨fun _ => hwarn, fun _ _ => ⟨hskip, hp, hb, hinput⟩⟩

/-- A command of another row waits while `ENC` is in flight (R139). -/
theorem exec_of_enc_phase {i : Instr} (hi : ∀ count, i ≠ .enc count)
    (hp : s.block.phase = .enc ∨ s.block.phase = .eDrain) : exec i s = .next s := by
  cases i with
  | enc count => exact absurd rfl (hi count)
  | decomp | burst | frame =>
    obtain hp | hp := hp <;> simp only [exec, execDecomp, execBurst, execFrame, hp]

/-- Settles O53: outside `ENC` and `E_DRAIN` a Pop only holds its byte, and no other move raises. -/
theorem onlyEncRaises : Obligations.OnlyEncRaises := by
  intro i s t hi hexec
  by_cases hp : s.block.phase = .enc ∨ s.block.phase = .eDrain
  · rw [exec_of_enc_phase hi hp] at hexec
    cases hexec
    exact ⟨rfl, rfl, rfl, rfl, .inl rfl⟩
  obtain rfl | hmoved := exec_cases hexec
  · exact ⟨rfl, rfl, rfl, rfl, .inl rfl⟩
  cases hmoved with
  | accept => exact ⟨normalise_err, normalise_warn, normalise_cause, normalise_einfo, .inr normalise_ecode⟩
  | pop v rest hr =>
    have hframe : s.block.phase = .fPre ∨ s.block.phase = .fPay := by
      obtain ⟨hphase, -⟩ := Block.inReady_iff.mp hr
      simpa [or_assoc, not_or.mp hp] using hphase
    rw [popEffect_frame hframe]
    exact ⟨normalise_err, normalise_warn, normalise_cause, normalise_einfo, .inl normalise_ecode⟩
  | emit v hv hfin =>
    obtain ⟨herr, hwarn, hcause, heinfo, hecode⟩ := (emitted hv hfin).status
    exact ⟨normalise_err.trans herr, normalise_warn.trans hwarn, normalise_cause.trans hcause,
      normalise_einfo.trans heinfo, .inl (normalise_ecode.trans hecode)⟩
  | done => exact ⟨rfl, rfl, rfl, rfl, .inl rfl⟩

end Sys2Proof.Machine
end

section
/-! PROOFS. The channels (20_memory.md): beats cross on valid and ready (O47), one channel at a time (O54), the
configuration and the history over runs (O55); and that no sound state stops (O43, O45). -/

namespace Sys2Proof.Machine

variable {c : Config} {b : Block} {s t : State} {i : Instr}

/-! ### Beats cross on valid and ready (R63, R137) -/

namespace Block

theorem handshake_of_cmdReady (h : b.cmdReady = true) : b.inReady = false ∧ b.outValid = false := by
  have hp := cmdReady_iff.mp h
  simp [inReady, outValid, hp]

theorem handshake_of_inReady (h : b.inReady = true) : b.cmdReady = false ∧ b.outValid = false := by
  obtain ⟨hp | hp | hp | hp, hb⟩ := inReady_iff.mp h <;> simp [cmdReady, outValid, hp, hb]

theorem handshake_of_outValid (h : b.outValid = true) : b.cmdReady = false ∧ b.inReady = false := by
  cases hp : b.phase <;> simp_all [cmdReady, inReady, outValid]

end Block

/-- The crossings of a turn of the block, by the pins before it. -/
def Crosses (s t : State) : Prop :=
  t.commands = (if (pins s).cmdTransfer then s.commands.tail else s.commands) ∧
  t.input = (if (pins s).inTransfer then s.input.tail else s.input) ∧
  (if (pins s).outTransfer then
    ∃ v, (pins s).outData = some v ∧
      t.output = s.output ++ [if (pins s).outEnd then OutRecord.done v else OutRecord.data v]
  else t.output = s.output) ∧
  ((pins s).cmdTransfer = false → (pins s).inTransfer = false → (pins s).outTransfer = false → t = s)

theorem cmdTransfer_eq (s : State) : (pins s).cmdTransfer = (!s.commands.isEmpty && s.block.cmdReady) := rfl

theorem inTransfer_eq (s : State) : (pins s).inTransfer = (!s.input.isEmpty && s.block.inReady) := rfl

theorem outTransfer_eq (s : State) : (pins s).outTransfer = (s.block.outValid && s.sinkReady) := rfl

theorem pins_outData (s : State) : (pins s).outData = s.block.outData s.config := rfl

theorem pins_outEnd (s : State) : (pins s).outEnd = s.block.outEnd := rfl

/-- No beat crosses where the block waits. -/
theorem crosses_of_waits (h : Waits s ∨ (s.block.phase = .idle ∧ s.commands = [])) : Crosses s s := by
  have hnone :
      (pins s).cmdTransfer = false ∧ (pins s).inTransfer = false ∧ (pins s).outTransfer = false := by
    simp only [cmdTransfer_eq, inTransfer_eq, outTransfer_eq]
    obtain (⟨hr, hnil⟩ | ⟨hv, hsink⟩ | ⟨hp, hb⟩) | ⟨hp, hnil⟩ := h
    · obtain ⟨hc, hv⟩ := Block.handshake_of_inReady hr
      simp [hc, hv, hnil]
    · obtain ⟨hc, hr⟩ := Block.handshake_of_outValid hv
      simp [hc, hr, hsink]
    · simp [Block.cmdReady, Block.inReady, Block.outValid, hp, hb]
    · obtain ⟨hr, hv⟩ := Block.handshake_of_cmdReady (Block.cmdReady_iff.mpr hp)
      simp [hr, hv, hnil]
  obtain ⟨hcmd, hin, hout⟩ := hnone
  simp [Crosses, hcmd, hin, hout]

/-- A Pop takes the byte on `in_data`, an Emit or End appends what stands on `out_data`. -/
theorem Moved.crosses (h : Moved s t) (hbusy : s.block.phase ≠ .idle) : Crosses s t := by
  cases h with
  | accept _ hp => exact absurd hp hbusy
  | pop v rest hr hi =>
    obtain ⟨hc, hv⟩ := Block.handshake_of_inReady hr
    simp [Crosses, cmdTransfer_eq, inTransfer_eq, outTransfer_eq, hr, hc, hv, hi]
  | emit v hv hfin hs hd =>
    obtain ⟨hc, hr⟩ := Block.handshake_of_outValid hv
    have hend : s.block.outEnd = false := Bool.eq_false_iff.mpr fun h => hfin (Block.outEnd_iff.mp h)
    simp [Crosses, cmdTransfer_eq, inTransfer_eq, outTransfer_eq, pins_outData, pins_outEnd, hc, hr, hv,
      hs, hd, hend]
  | done hp hs =>
    have hv : s.block.outValid = true := by simp [Block.outValid, hp]
    have hd : s.block.outData s.config = some s.block.ecode := by simp [Block.outData, hp]
    obtain ⟨hc, hr⟩ := Block.handshake_of_outValid hv
    simp [Crosses, cmdTransfer_eq, inTransfer_eq, outTransfer_eq, pins_outData, pins_outEnd, hc, hr, hv,
      hs, hd, Block.outEnd_iff.mpr hp]

theorem blockStep_crosses (h : blockStep s = .next t) : Crosses s t := by
  obtain ⟨rfl, hwaits⟩ | ⟨hbusy, hmoved⟩ | ⟨w, rest, hp, hc, ⟨i, -, rfl⟩ | ⟨-, rfl⟩⟩ := blockStep_cases h
  · exact crosses_of_waits hwaits
  · exact hmoved.crosses hbusy
  all_goals
    have hready := Block.cmdReady_iff.mpr hp
    obtain ⟨hr, hv⟩ := Block.handshake_of_cmdReady hready
    simp [Crosses, cmdTransfer_eq, inTransfer_eq, outTransfer_eq, hready, hr, hv, hc]

/-- Settles O47: at most one channel's `ready` or `valid` is the block's, and its step is that channel's beat. -/
theorem beatsCrossOnValidAndReady : Obligations.BeatsCrossOnValidAndReady := fun s _ hmoves hstep =>
  blockStep_crosses (s := { s with schedule := s.schedule.tail }) (blockStep_of_step hmoves hstep)

/-! ### One channel at a time (R134, R135) -/

/-- Settles O54: a hold, or one of the four moves. -/
theorem commandsTouchOneChannelAtATime : Obligations.CommandsTouchOneChannelAtATime := by
  intro i s t hexec
  obtain rfl | hmoved := exec_cases hexec
  · exact ⟨rfl, rfl, rfl, rfl, .inl ⟨rfl, rfl⟩⟩
  cases hmoved with
  | accept => exact ⟨rfl, rfl, rfl, rfl, .inl ⟨rfl, rfl⟩⟩
  | pop v rest hr hi => exact ⟨rfl, rfl, rfl, rfl, .inr (.inl ⟨rfl, hr, v, hi⟩)⟩
  | emit v hv _ hs => exact ⟨rfl, rfl, rfl, rfl, .inr (.inr ⟨rfl, hv, hs, v, .inl rfl⟩)⟩
  | done hp hs =>
    exact ⟨rfl, rfl, rfl, rfl,
      .inr (.inr ⟨rfl, by simp [Block.outValid, hp], hs, s.block.ecode, .inr ⟨hp, rfl⟩⟩)⟩

/-! ### The configuration and the history (R36, R65) -/

theorem Moved.config_output (h : Moved s t) : t.config = s.config ∧ s.output <+: t.output := by
  cases h with
  | accept | pop => exact ⟨rfl, List.prefix_rfl⟩
  | emit | done => exact ⟨rfl, List.prefix_append ..⟩

theorem step_config_output (h : step s = .next t) : t.config = s.config ∧ s.output <+: t.output := by
  obtain ⟨-, hblock⟩ | ⟨turn, rest, -, -, rfl⟩ := step_cases h
  · obtain ⟨rfl, -⟩ | ⟨-, hmoved⟩ | ⟨w, rest, -, -, ⟨i, -, rfl⟩ | ⟨-, rfl⟩⟩ := blockStep_cases hblock
    · exact ⟨rfl, List.prefix_rfl⟩
    · exact hmoved.config_output
    · exact ⟨rfl, List.prefix_rfl⟩
    · exact ⟨rfl, List.prefix_rfl⟩
  · cases turn with
    | reset => exact ⟨rfl, List.prefix_append ..⟩
    | block | command | byte | sink => exact ⟨rfl, List.prefix_rfl⟩

/-- Settles O55: every step keeps the configuration and what `OUT` holds. -/
theorem configurationNeverChanges : Obligations.ConfigurationNeverChanges := by
  intro n s t hrun
  refine run_keeps (P := fun u => u.config = s.config ∧ s.output <+: u.output) (fun u u' hu hstep => ?_)
    ⟨rfl, List.prefix_rfl⟩ hrun
  obtain ⟨hconfig, hprefix⟩ := step_config_output hstep
  exact ⟨hconfig.trans hu.1, hu.2.trans hprefix⟩

/-! ### No sound state stops (R232, R142) -/

theorem Block.Sound.havePhase (h : b.Sound c) : b.HavePhase := h.1

theorem Block.Sound.belowLimit (h : b.Sound c) : b.BelowLimit c := h.2.1

/-- Where the block is due neither a word nor a byte it has a beat to give (R137). -/
theorem Block.HavePhase.outValid_of_not_ready (h : b.HavePhase) (hc : b.cmdReady = false)
    (hr : b.inReady = false) : b.outValid = true := by
  have hone := h.one_handshake
  rw [hc, hr] at hone
  cases hv : b.outValid
  · simp [hv] at hone
  · rfl

/-- Settles O43: the reset registers are sound whatever the constants. -/
theorem resetStateIsSound : Obligations.ResetStateIsSound :=
  ⟨by decide, Block.reset_sound Config.hardware⟩

theorem burstChip_eq_some {p : Nat} (h : p < c.repLen) (code : Byte) :
    ∃ chip, burstChip c code p = some chip := by
  rw [burstChipIsTheRepetition, ← Option.isSome_iff_exists]
  simpa [length_repetition] using h

/-- In a sound state the element due has a value (R40 (b), R40 (c)). -/
theorem Block.Sound.outData_eq_some (h : b.Sound c) (hv : b.outValid = true) :
    ∃ v, b.outData c = some v := by
  obtain ⟨-, ⟨hcnt, -⟩, hsym, -⟩ := h
  cases hp : b.phase <;>
    simp only [Block.outValid, Block.outData, limit, hp, Option.mem_some_iff, reduceCtorEq,
      forall_eq'] at hv hcnt ⊢
  case dec => exact ⟨_, by rw [bit_eq_some (by omega)]; rfl⟩
  case enc =>
    obtain hs | hs := (hsym hp).1 hv <;> simp [hv, hs, encChip, Symbol.ofNumber]
  case burst =>
    obtain ⟨chip, hchip⟩ := burstChip_eq_some hcnt (codeField b.cmd)
    exact ⟨zext8 chip, by rw [hchip]; rfl⟩
  case fPre | fPay => exact ⟨b.sym, if_pos hv⟩
  all_goals exact ⟨_, rfl⟩

theorem endStep_next (s : State) : ∃ t, endStep s = .next t := by
  cases hs : s.sinkReady
  · exact ⟨s, by rw [endStep, hs]; rfl⟩
  · exact ⟨_, endStep_ready hs⟩

theorem pop_next (use : Byte → Block → Block) (s : State) : ∃ t, pop use s = .next t := by
  cases hi : s.input with
  | nil => exact ⟨s, pop_nil hi⟩
  | cons v rest => exact ⟨_, pop_cons hi⟩

theorem emitOr_next (f : Fault) (v : Byte) (after : Block → Block) (s : State) :
    ∃ t, emitOr f (some v) after s = .next t := by
  cases hs : s.sinkReady
  · exact ⟨s, emitOr_not_ready hs⟩
  · exact ⟨_, emitOr_ready hs⟩

theorem blockStep_idle_next (hp : s.block.phase = .idle) : ∃ t, blockStep s = .next t := by
  cases hc : s.commands with
  | nil => exact ⟨s, blockStep_idle_nil hp hc⟩
  | cons w rest =>
    cases hw : legal w
    · exact ⟨_, blockStep_idle_illegal hp hc hw⟩
    · obtain ⟨i, hi⟩ := (decode_ok_iff_legal w).mpr hw
      exact ⟨_, by rw [blockStep_idle_ok hp hc hi, exec_idle (by exact hp)]⟩

theorem blockStep_next_of_sound (h : s.Sound) : ∃ t, blockStep s = .next t := by
  obtain ⟨-, hsound⟩ := h
  cases hc : s.block.cmdReady
  · cases hr : s.block.inReady
    · have hv : s.block.outValid = true := hsound.havePhase.outValid_of_not_ready hc hr
      by_cases hp : s.block.phase = .finish
      · rw [blockStep_finish hp]; exact endStep_next s
      · obtain ⟨f, e⟩ := blockStep_emit hv hp
        obtain ⟨v, hd⟩ := hsound.outData_eq_some hv
        rw [e, hd]; exact emitOr_next f v _ s
    · rw [blockStep_pop hr]; exact pop_next _ s
  · exact blockStep_idle_next (Block.cmdReady_iff.mp hc)

/-- Settles O45: the block's step is one of four that answer, and another agent's turn always answers. -/
theorem soundStatesNeverStop : Obligations.SoundStatesNeverStop := by
  intro s hs
  by_cases hmoves : s.BlockMoves
  · rw [step_of_blockMoves hmoves]
    exact blockStep_next_of_sound hs
  · unfold step
    revert hmoves
    unfold State.BlockMoves
    rcases nextTurn s with ⟨turn, s'⟩
    cases turn with
    | block => exact fun h => absurd rfl h
    | command | byte | reset | sink => exact fun _ => ⟨_, rfl⟩

end Sys2Proof.Machine
end

section
/-! PROOFS. Timing changes no value (40_command_execution.md R138, O58).

A machine is compared with its eager twin: the same registers and history, everything the host will offer offered at
once, the sink always ready, nothing scheduled. A step of the machine without reset is no step of the twin, or exactly
its next one. Machines with one twin are two points of its one run. -/

namespace Sys2Proof.Machine

variable {s t u : State}

/-- The machine with everything offered at once and the sink ready. -/
def State.eager (s : State) : State :=
  { s with commands := s.allCommands, input := s.allInput, sinkReady := true, schedule := [] }

/-- Taking the block's turn off the schedule offers and withholds nothing. -/
theorem eager_of_blockMoves (h : s.BlockMoves) :
    ({ s with schedule := s.schedule.tail } : State).eager = s.eager := by
  cases hs : s.schedule with
  | nil => simp [State.eager, State.allCommands, State.allInput, hs]
  | cons turn rest =>
    obtain rfl : turn = .block := by simpa [State.BlockMoves, nextTurn, hs] using h
    simp [State.eager, State.allCommands, State.allInput, hs, List.filterMap_cons, Turn.offeredWord,
      Turn.offeredByte]

/-- On the host's and the sink's turns the twin stays as it is. -/
theorem eager_environmentStep {turn : Turn} {rest : List Turn} (hs : s.schedule = turn :: rest)
    (hblock : turn ≠ .block) (hreset : turn ≠ .reset) :
    (environmentStep turn { s with schedule := rest }).eager = s.eager := by
  cases turn with
  | block => exact absurd rfl hblock
  | reset => exact absurd rfl hreset
  | command | byte | sink =>
    simp [State.eager, State.allCommands, State.allInput, hs, List.filterMap_cons, Turn.offeredWord,
      Turn.offeredByte, environmentStep]

theorem step_eager (s : State) : step s.eager = blockStep s.eager := step_of_unscheduled rfl

/-- A move of a busy block is a move of its twin. -/
theorem Moved.eager_step (h : Moved s t) (hbusy : s.block.phase ≠ .idle) :
    blockStep s.eager = .next t.eager := by
  cases h with
  | accept _ hp => exact absurd hp hbusy
  | pop v rest hr hi =>
    have hin : s.eager.input = v :: (rest ++ s.schedule.filterMap Turn.offeredByte) := by
      simp [State.eager, State.allInput, hi]
    rw [blockStep_pop (by exact hr), pop_cons hin]
    rfl
  | emit v hv hfin hs hd =>
    obtain ⟨f, e⟩ := blockStep_emit (s := s.eager) hv hfin
    have hd : s.eager.block.outData s.eager.config = some v := hd
    rw [e, hd, emitOr_ready rfl]
    rfl
  | done hp hs =>
    rw [blockStep_finish (by exact hp), endStep_ready rfl]
    rfl

/-- A turn of the block is a hold, or the next step of its twin. -/
theorem blockStep_eager (h : blockStep s = .next t) : t = s ∨ blockStep s.eager = .next t.eager := by
  obtain ⟨rfl, -⟩ | ⟨hbusy, hmoved⟩ | ⟨w, rest, hp, hc, hword⟩ := blockStep_cases h
  · exact .inl rfl
  · exact .inr (hmoved.eager_step hbusy)
  · right
    have hcmd : s.eager.commands = w :: (rest ++ s.schedule.filterMap Turn.offeredWord) := by
      simp [State.eager, State.allCommands, hc]
    obtain ⟨i, hd, rfl⟩ | ⟨⟨r, hd⟩, rfl⟩ := hword
    · rw [blockStep_idle_ok (by exact hp) hcmd hd, exec_idle (by exact hp)]
      rfl
    · have hw : legal w = false := by
        rw [← Bool.not_eq_true, ← decode_ok_iff_legal, hd]
        simp
      rw [blockStep_idle_illegal (by exact hp) hcmd hw, normalise_finish rfl]
      rfl

theorem blockStep_schedule (h : blockStep s = .next t) : t.schedule = s.schedule := by
  obtain ⟨rfl, -⟩ | ⟨-, hmoved⟩ | ⟨w, rest, -, -, ⟨i, -, rfl⟩ | ⟨-, rfl⟩⟩ := blockStep_cases h
  · rfl
  · cases hmoved <;> rfl
  · rfl
  · rfl

/-- Without reset a step of the machine is no step of its twin, or the twin's next one. -/
theorem step_eager_of_step (hreset : s.NoReset) (h : step s = .next t) :
    t.NoReset ∧ (t.eager = s.eager ∨ step s.eager = .next t.eager) := by
  obtain ⟨hmoves, hblock⟩ | ⟨turn, rest, hs, hne, rfl⟩ := step_cases h
  · constructor
    · rw [State.NoReset, blockStep_schedule hblock]
      exact fun hmem => hreset (List.mem_of_mem_tail hmem)
    · rw [step_eager, ← eager_of_blockMoves hmoves]
      exact (blockStep_eager hblock).imp_left (congrArg State.eager)
  · rw [State.NoReset, hs, List.mem_cons, not_or] at hreset
    obtain ⟨hturn, hrest⟩ := hreset
    refine ⟨?_, .inl (eager_environmentStep hs hne (Ne.symm hturn))⟩
    cases turn with
    | block | command | byte | reset | sink => exact hrest

/-- Every run without reset is a run of the twin, its holds and the other agents' turns left out. -/
theorem run_eager {n : Nat} (hreset : s.NoReset) (h : Host.Core.run core n s = .next t) :
    ∃ m, Host.Core.run core m s.eager = .next t.eager := by
  induction n generalizing s with
  | zero => cases h; exact ⟨0, rfl⟩
  | succ n ih =>
    obtain ⟨s', hstep, hrun⟩ := run_inv h
    obtain ⟨hreset', hsame | hnext⟩ := step_eager_of_step hreset hstep
    · obtain ⟨m, hm⟩ := ih hreset' hrun
      exact ⟨m, hsame ▸ hm⟩
    · obtain ⟨m, hm⟩ := ih hreset' hrun
      exact ⟨m + 1, by rw [run_succ hnext, hm]⟩

/-- From s to t nothing has changed, or a beat has crossed, as the offers left and the length of the history show. -/
def Further (s t : State) : Prop :=
  t = s ∨
    (t.commands.length ≤ s.commands.length ∧ t.input.length ≤ s.input.length ∧
      s.output.length ≤ t.output.length ∧
      ¬(t.commands.length = s.commands.length ∧ t.input.length = s.input.length ∧
        t.output.length = s.output.length))

theorem Further.trans (h : Further s t) (h' : Further t u) : Further s u := by
  obtain rfl | h := h
  · exact h'
  obtain rfl | h' := h'
  · exact .inr h
  · exact .inr (by omega)

/-- A step of the block that changes anything moves a beat. -/
theorem further_of_blockStep (h : blockStep s = .next t) : Further s t := by
  obtain ⟨rfl, -⟩ | ⟨hbusy, hmoved⟩ | ⟨w, rest, -, hc, ⟨i, -, rfl⟩ | ⟨-, rfl⟩⟩ := blockStep_cases h
  · exact .inl rfl
  · cases hmoved with
    | accept _ hp => exact absurd hp hbusy
    | pop v rest hr hi => exact .inr (by simp [hi])
    | emit | done => exact .inr (by simp)
  · exact .inr (by simp [hc])
  · exact .inr (by simp [hc])

theorem further_of_run {n : Nat} (hs : s.schedule = []) (h : Host.Core.run core n s = .next t) :
    Further s t := by
  induction n generalizing s with
  | zero => cases h; exact .inl rfl
  | succ n ih =>
    obtain ⟨s', hstep, hrun⟩ := run_inv h
    have hblock : blockStep s = .next s' := step_of_unscheduled hs ▸ hstep
    exact (further_of_blockStep hblock).trans (ih ((blockStep_schedule hblock).trans hs) hrun)

/-- Of two points of one run, one is reached from the other. -/
theorem run_linear {m n : Nat} (hm : Host.Core.run core m s = .next t)
    (hn : Host.Core.run core n s = .next u) :
    (∃ k, Host.Core.run core k t = .next u) ∨ ∃ k, Host.Core.run core k u = .next t := by
  obtain ⟨k, rfl⟩ | ⟨k, rfl⟩ := (Nat.le_total m n).imp Nat.exists_eq_add_of_le Nat.exists_eq_add_of_le
  · exact .inl ⟨k, (run_add hm).symm.trans hn⟩
  · exact .inr ⟨k, (run_add hn).symm.trans hm⟩

/-- What a run of the twin from t to u says of the machines: t's history is the beginning of u's, and where as much has
crossed they are equal. -/
theorem eager_run_output {k : Nat} (h : Host.Core.run core k t.eager = .next u.eager) :
    t.output <+: u.output ∧
      (t.allCommands.length = u.allCommands.length → t.allInput.length = u.allInput.length →
        t.output.length = u.output.length → t.block = u.block ∧ t.output = u.output) := by
  refine ⟨(configurationNeverChanges k _ _ h).2, fun hcmd hin hout => ?_⟩
  obtain heq | ⟨-, -, -, hmore⟩ := further_of_run rfl h
  · have hb : u.eager.block = t.eager.block := congrArg State.block heq
    have ho : u.eager.output = t.eager.output := congrArg State.output heq
    exact ⟨hb.symm, ho.symm⟩
  · exact absurd ⟨hcmd.symm, hin.symm, hout.symm⟩ hmore

/-- Settles O58: both machines have one twin, and its run is one line. -/
theorem timingChangesNoValue : Obligations.TimingChangesNoValue := by
  intro s₁ s₂ t₁ t₂ n₁ n₂ hblock hconfig houtput hcommands hinput hreset₁ hreset₂ hrun₁ hrun₂
  have htwin : s₁.eager = s₂.eager := by
    simp only [State.eager, hblock, hconfig, houtput, hcommands, hinput]
  obtain ⟨m₁, hm₁⟩ := run_eager hreset₁ hrun₁
  obtain ⟨m₂, hm₂⟩ := run_eager hreset₂ hrun₂
  obtain ⟨k, hk⟩ | ⟨k, hk⟩ := run_linear (htwin ▸ hm₁) hm₂
  · obtain ⟨hprefix, hequal⟩ := eager_run_output hk
    exact ⟨.inl hprefix, hequal⟩
  · obtain ⟨hprefix, hequal⟩ := eager_run_output hk
    refine ⟨.inr hprefix, fun hcmd hin hout => ?_⟩
    obtain ⟨hb, ho⟩ := hequal hcmd.symm hin.symm hout.symm
    exact ⟨hb.symm, ho.symm⟩

end Sys2Proof.Machine
end

section
/-! PROOFS. Whole commands (40_command_execution.md R143): how their runs are put together, and the packet of DECOMP
(41_dip_decomposer.md R163, O24).

A run of the block alone is composed from steps and loops by what it takes from `IN` and gives to `OUT`
(`Produces`). Every part of a command runs from `normalise c b` to `normalise c b'`, so that parts that are empty need no
case of their own. -/

namespace Sys2Proof.Machine

variable {c : Config} {b b' b'' : Block} {s t : State} {m n : Nat} {x y : List Byte} {o o' : List OutRecord}

/-! ### Runs of the block alone -/

/-- With nothing scheduled and the sink ready, n steps from the registers b take the bytes x, leave the registers b' and
append the entries o. -/
def Produces (c : Config) (n : Nat) (b : Block) (x : List Byte) (b' : Block) (o : List OutRecord) : Prop :=
  ∀ s : State, s.config = c → s.schedule = [] → s.sinkReady = true → s.block = b →
    ∀ rest, s.input = x ++ rest →
      Host.Core.run core n s = .next { s with block := b', input := rest, output := s.output ++ o }

theorem produces_nothing (c : Config) (b : Block) : Produces c 0 b [] b [] := by
  rintro s - - - rfl rest hin
  obtain rfl : s.input = rest := hin
  rw [List.append_nil]
  rfl

theorem Produces.trans (h : Produces c m b x b' o) (h' : Produces c n b' y b'' o') :
    Produces c (m + n) b (x ++ y) b'' (o ++ o') := by
  intro s hc hs hr hb rest hin
  have hfirst := h s hc hs hr hb (y ++ rest) (by rw [hin, List.append_assoc])
  have hsecond := h' { s with block := b', input := y ++ rest, output := s.output ++ o } hc hs hr rfl
    rest rfl
  rw [run_add hfirst, hsecond, List.append_assoc]

theorem Produces.cast {k : Nat} {z : List Byte} {p : List OutRecord} (h : Produces c n b x b' o)
    (hn : n = k) (hx : x = z) (ho : o = p) : Produces c k b z b' p := by
  subst hn hx ho
  exact h

/-- One run after the other, with the sums of what they do. -/
theorem Produces.append {k : Nat} {z : List Byte} {p : List OutRecord} (h : Produces c m b x b' o)
    (h' : Produces c n b' y b'' o') (hn : m + n = k) (hx : x ++ y = z) (ho : o ++ o' = p) :
    Produces c k b z b'' p :=
  (h.trans h').cast hn hx ho

theorem produces_of_step
    (h : ∀ s : State, s.config = c → s.schedule = [] → s.sinkReady = true → s.block = b →
      ∀ rest, s.input = x ++ rest →
        blockStep s = .next { s with block := b', input := rest, output := s.output ++ o }) :
    Produces c 1 b x b' o := by
  intro s hc hs hr hb rest hin
  rw [run_succ ((step_of_unscheduled hs).trans (h s hc hs hr hb rest hin))]
  rfl

/-- A Pop. -/
theorem produces_pop (hr : b.inReady = true) (v : Byte) :
    Produces c 1 b [v] (normalise c (popEffect c v b)) [] := by
  refine produces_of_step ?_
  rintro s rfl - - rfl rest hin
  rw [blockStep_pop hr, pop_cons hin, List.append_nil]
  rfl

/-- An Emit. -/
theorem produces_emit (hv : b.outValid = true) (hp : b.phase ≠ .finish) {v : Byte}
    (hd : b.outData c = some v) :
    Produces c 1 b [] (normalise c (emitEffect b)) [.data v] := by
  refine produces_of_step ?_
  rintro s rfl - hready rfl rest hin
  obtain rfl : s.input = rest := hin
  obtain ⟨f, e⟩ := blockStep_emit hv hp
  rw [e, hd, emitOr_ready hready]

/-- End. -/
theorem produces_end (hp : b.phase = .finish) : Produces c 1 b [] (b.setPhase .idle) [.done b.ecode] := by
  refine produces_of_step ?_
  rintro s - - hready rfl rest hin
  obtain rfl : s.input = rest := hin
  rw [blockStep_finish hp, endStep_ready hready]
  rfl

/-! ### Rests of normalise() -/

/-- A pass that `normalise()` makes anyway changes nothing about where it rests. -/
theorem normalise_of_advance (h : advance c b = b') : normalise c b = normalise c b' := by
  have hlast (n : Nat) (b : Block) : advanceTimes c n (advance c b) = advance c (advanceTimes c n b) := by
    induction n generalizing b with
    | zero => rfl
    | succ n ih => exact ih (advance c b)
  calc normalise c b = advance c (normalise c b) := (advance_normalise c b).symm
    _ = normalise c (advance c b) := (hlast 6 b).symm
    _ = normalise c b' := by rw [h]

/-- Below its limits a phase rests (R40 (b)). -/
theorem Block.BelowLimit.normalise_eq (h : b.BelowLimit c) : normalise c b = b := by
  obtain ⟨hcnt, hrep⟩ := h
  refine normalise_of_exit ?_
  cases hp : b.phase <;> simp only [limit, hp, Option.mem_some_iff, forall_eq'] at hcnt
  case idle | finish => simp only [advance, hp]
  case burst =>
    have hrep := hrep hp
    simp only [advance, hp]
    rw [if_neg hrep.ne, if_neg hcnt.ne]
  case fHdr | fCsum =>
    simp only [advance, hp]
    split at hcnt
    · exact if_neg (by simp [*, hcnt.ne])
    · exact absurd hcnt (Nat.not_lt_zero _)
  case enc | fPre | fPay =>
    simp only [advance, hp]
    exact if_neg fun h => hcnt.ne h.2
  all_goals
    simp only [advance, hp]
    exact if_neg hcnt.ne

/-! ### Loops -/

/-- The registers with k elements of the phase counted. -/
def Block.atCount (b : Block) (k : Nat) : Block := { b with cnt := BitVec.ofNat 16 k }

theorem Block.atCount_zero (h : b.cnt = 0) : b.atCount 0 = b := by
  rw [atCount, show BitVec.ofNat 16 0 = b.cnt from h.symm]

theorem Block.countUp_atCount (b : Block) (k : Nat) : (b.atCount k).countUp = b.atCount (k + 1) := by
  rw [atCount, atCount, BitVec.ofNat_add]
  rfl

theorem Block.atCount_cnt_toNat {k : Nat} (h : k ≤ 65535) : (b.atCount k).cnt.toNat = k := by
  rw [atCount, BitVec.toNat_ofNat, Nat.mod_eq_of_lt (by omega)]

theorem Phase.Counts.ne_finish {p : Phase} (h : p.Counts) : p ≠ .finish := by
  rintro rfl
  simp [Phase.Counts] at h

/-- A phase that only counts gives its elements one by one, from `CNT = 0` to its limit. -/
theorem produces_elements {l : List Byte} (hp : b.phase.Counts) (hlimit : limit c b = some l.length)
    (hlen : l.length ≤ 65535) (hrep : b.phase = .burst → b.rep.toNat < c.repeatNum) (hcnt : b.cnt = 0)
    (hd : ∀ k < l.length, (b.atCount k).outData c = l[k]?) :
    Produces c l.length (normalise c b) [] (normalise c (b.atCount l.length)) (Reference.byteBeats l) := by
  have hloop (k : Nat) (hk : k ≤ l.length) :
      Produces c k (normalise c b) [] (normalise c (b.atCount k)) (Reference.byteBeats (l.take k)) := by
    induction k with
    | zero => exact (Block.atCount_zero hcnt).symm ▸ produces_nothing c _
    | succ k ih =>
      have hbelow : (b.atCount k).BelowLimit c := by
        refine ⟨fun n hn => ?_, hrep⟩
        obtain rfl : l.length = n := Option.some_inj.mp (hlimit.symm.trans hn)
        exact (Block.atCount_cnt_toNat (by omega)).trans_lt hk
      have hprev := ih (by omega)
      have hstep := produces_emit (b := b.atCount k) (outValid_of_counts hp) hp.ne_finish
        ((hd k hk).trans (List.getElem?_eq_getElem hk))
      rw [hbelow.normalise_eq] at hprev
      rw [emitEffect_counts (by exact hp), Block.countUp_atCount] at hstep
      rw [List.take_succ_eq_append_getElem hk, Reference.byteBeats, List.map_append]
      exact hprev.trans hstep
  have hall := hloop l.length le_rfl
  rwa [List.take_length] at hall

/-! ### From IDLE to IDLE -/

/-- The registers right after an Accept, before `normalise()`. -/
def Block.start (b : Block) (i : Instr) : Block := (b.latchCommand (encode i)).setPhase (firstPhase i)

theorem chipBeats_eq (chips : List Chip) :
    Reference.chipBeats chips = Reference.byteBeats (chips.map zext8) := by
  simp [Reference.chipBeats, Reference.byteBeats, zext8]

/-- A command whose parts run from its start to `b'` in `END` runs from `IDLE` to `IDLE`. -/
theorem packet_of_produces {i : Instr} {rest : List Byte} (hidle : s.block.phase = .idle)
    (hready : s.sinkReady = true) (hsched : s.schedule = []) (hin : s.input = x ++ rest)
    (hparts : Produces s.config n (normalise s.config (s.block.start i)) x b' o)
    (hp : b'.phase = .finish) :
    ∃ t, exec i s = .next t ∧ Host.Core.run core (n + 1) t = .next
      { s with block := b'.setPhase .idle, input := rest, output := s.output ++ o ++ [.done b'.ecode] } := by
  refine ⟨_, exec_idle hidle i, ?_⟩
  have hrun := (hparts.trans (produces_end hp)) { s with block := normalise s.config (s.block.start i) }
    rfl hsched hready rfl rest (by rw [hin, List.append_nil])
  rw [← List.append_assoc] at hrun
  exact hrun

/-! ### DECOMP (R163) -/

theorem length_decompose (code : Byte) : (Reference.decompose code).length = 8 := rfl

theorem decompose_getElem? (code : Byte) {k : Nat} (h : k < 8) :
    (Reference.decompose code)[k]? = some (Reference.bit code.toNat k) := by
  simp [Reference.decompose, h]

theorem sum_bits (n m : Nat) : ((List.range m).map fun i => n / 2 ^ i % 2 * 2 ^ i).sum = n % 2 ^ m := by
  induction m with
  | zero => rw [Nat.pow_zero, Nat.mod_one]; rfl
  | succ m ih =>
    rw [List.range_succ, List.map_append, List.sum_append, ih, Nat.mod_pow_succ, Nat.mul_comm]
    simp

/-- The bits of a code, weighted by their places, are its number (R163). -/
theorem decompose_sum (code : Byte) :
    ((List.range 8).map fun i => ((Reference.decompose code).getD i 0).toNat * 2 ^ (7 - i)).sum =
      code.toNat := by
  have hbits : (List.range 8).map (fun i => ((Reference.decompose code).getD i 0).toNat * 2 ^ (7 - i)) =
      (List.range 8).map fun i => code.toNat / 2 ^ (7 - i) % 2 * 2 ^ (7 - i) := by
    refine List.map_congr_left fun i hi => ?_
    rw [List.getD_eq_getElem?_getD, decompose_getElem? code (List.mem_range.mp hi), Option.getD_some,
      reference_bit_toNat, Nat.shiftRight_eq_div_pow]
  have hreverse : (List.range 8).map (fun i => code.toNat / 2 ^ (7 - i) % 2 * 2 ^ (7 - i)) =
      ((List.range 8).map fun i => code.toNat / 2 ^ i % 2 * 2 ^ i).reverse := rfl
  rw [hbits, hreverse, List.sum_reverse, sum_bits, Nat.mod_eq_of_lt code.isLt]

/-- The phase `DEC` from its start to its end. -/
theorem produces_decompose (hp : b.phase = .dec) (hcnt : b.cnt = 0) :
    Produces c 8 (normalise c b) [] ((b.atCount 8).setPhase .finish)
      (Reference.chipBeats (Reference.decompose (codeField b.cmd))) := by
  have hdata (k : Nat) (hk : k < 8) :
      (b.atCount k).outData c = ((Reference.decompose (codeField b.cmd)).map zext8)[k]? := by
    have hcount : (b.atCount k).cnt.toNat = k := Block.atCount_cnt_toNat (by omega)
    rw [outData_dec (b := b.atCount k) hp (by omega), hcount, List.getElem?_map, decompose_getElem? _ hk]
    rfl
  have hrun := produces_elements (c := c) (l := (Reference.decompose (codeField b.cmd)).map zext8)
    (by simp [Phase.Counts, hp]) (by simp only [limit, hp]; rfl) (by simp [length_decompose]) (by simp [hp])
    hcnt hdata
  rw [List.length_map, length_decompose, normalise_dec (b := b.atCount 8) hp, if_pos (by rfl),
    ← chipBeats_eq] at hrun
  exact hrun

/-- Settles O24: `DEC` gives the eight bits, and End closes the packet. -/
theorem decompPacketIsDecompose : Obligations.DecompPacketIsDecompose := by
  refine fun code s hidle hready hsched => ⟨?_, length_decompose code, decompose_sum code⟩
  obtain ⟨t, hexec, hrun⟩ := packet_of_produces (i := .decomp code) hidle hready hsched (x := []) rfl
    (produces_decompose rfl rfl) rfl
  refine ⟨t, hexec, hrun.trans ?_⟩
  simp only [Block.start, Block.atCount, Block.setPhase, Block.latchCommand, codeField_encode_decomp, hidle]
  rfl

end Sys2Proof.Machine
end

section
/-! PROOFS. The packets of ENC (42_line_encoder.md R177, O30 to O32): a symbol that is valid takes a Pop and four Emits,
one that is skipped or drained a Pop alone. -/

namespace Sys2Proof.Machine

variable {c : Config} {b : Block} {s : State} {v : Byte}

/-! ### One symbol -/

/-- The byte of symbol v is used up: SYM keeps it (R173). -/
def Block.symbolDone (v : Byte) (b : Block) : Block :=
  { b with sym := v, chip := 0, haveByte := false, cnt := b.cnt + 1 }

theorem le_one_iff : v.toNat ≤ 1 ↔ v = 0 ∨ v = 1 := by bv_omega

theorem ofNumber_of_valid (hv : v = 0 ∨ v = 1) :
    Symbol.ofNumber v.toNat = some (bitSymbol (Reference.symbolBit v)) := by
  obtain rfl | rfl := hv <;> rfl

theorem chipBeats_cw (x : Chip) :
    Reference.chipBeats (Reference.cw x) =
      [.data (zext8 (cwChip (bitSymbol x) 0)), .data (zext8 (cwChip (bitSymbol x) 1)),
        .data (zext8 (cwChip (bitSymbol x) 2)), .data (zext8 (cwChip (bitSymbol x) 3))] := by
  rw [cw_eq]
  cases bitSymbol x <;> rfl

/-- The registers of `ENC` with v held and j of its chips given. -/
def Block.holding (v : Byte) (j : BitVec 2) (b : Block) : Block :=
  { b with sym := v, haveByte := true, chip := j }

/-- One chip of a held symbol (R173). -/
theorem produces_chip (hp : b.phase = .enc) (hv : v = 0 ∨ v = 1) (j : BitVec 2) :
    Produces c 1 (b.holding v j) [] (normalise c (b.holding v j).nextChip)
      [.data (zext8 (cwChip (bitSymbol (Reference.symbolBit v)) j.toFin))] := by
  have hemit := produces_emit (c := c) (b := b.holding v j) (by simp [Block.outValid, Block.holding, hp])
    (by simp [Block.holding, hp]) (outData_enc hp rfl (ofNumber_of_valid hv))
  rwa [emitEffect_enc (by exact hp)] at hemit

theorem normalise_nextChip_holding (hp : b.phase = .enc) {j : BitVec 2} (hj : j ≠ 3) :
    normalise c (b.holding v j).nextChip = b.holding v (j + 1) := by
  rw [Block.nextChip, if_neg (by exact hj)]
  exact normalise_have (.inl hp) rfl

/-- A valid symbol: a Pop, and an Emit for each chip of its codeword (R172, R173). -/
theorem produces_symbol (hp : b.phase = .enc) (hb : b.haveByte = false) (hv : v = 0 ∨ v = 1) :
    Produces c 5 b [v] (normalise c (b.symbolDone v))
      (Reference.chipBeats (Reference.cw (Reference.symbolBit v))) := by
  have hpop : Produces c 1 b [v] (b.holding v 0) [] := by
    have hstep := produces_pop (c := c) (Block.inReady_iff.mpr ⟨.inl hp, hb⟩) v
    rwa [popEffect_enc hp, takeSymbol_valid hv, normalise_have (by exact .inl hp) rfl] at hstep
  have hchip (j : BitVec 2) (hj : j ≠ 3) : Produces c 1 (b.holding v j) [] (b.holding v (j + 1))
      [.data (zext8 (cwChip (bitSymbol (Reference.symbolBit v)) j.toFin))] :=
    normalise_nextChip_holding hp hj ▸ produces_chip hp hv j
  rw [chipBeats_cw]
  exact hpop.trans ((hchip 0 (by decide)).trans ((hchip 1 (by decide)).trans ((hchip 2 (by decide)).trans
    (produces_chip hp hv 3))))

/-- An invalid symbol on a block built to skip: a Pop (R176). -/
theorem produces_skip (hp : b.phase = .enc) (hb : b.haveByte = false) (hv : 1 < v.toNat)
    (hskip : c.skipBadSymbol = true) : Produces c 1 b [v] (normalise c b.skipSymbol) [] := by
  have hstep := produces_pop (c := c) (Block.inReady_iff.mpr ⟨.inl hp, hb⟩) v
  rwa [popEffect_enc hp, takeSymbol_skip hv hskip] at hstep

/-! ### Many symbols -/

/-- The symbols that are encoded (R101, R176). -/
def validSymbols (l : List Byte) : List Byte := l.filter fun v => decide (v.toNat ≤ 1)

theorem validSymbols_cons_valid (hv : v = 0 ∨ v = 1) (l : List Byte) :
    validSymbols (v :: l) = v :: validSymbols l := by
  simp [validSymbols, le_one_iff.mpr hv]

theorem validSymbols_cons_invalid (hv : 1 < v.toNat) (l : List Byte) :
    validSymbols (v :: l) = validSymbols l := by
  simp [validSymbols, hv]

theorem length_validSymbols_le (l : List Byte) : (validSymbols l).length ≤ l.length :=
  List.length_filter_le ..

theorem validSymbols_eq_self {l : List Byte} (h : ∀ v ∈ l, v = 0 ∨ v = 1) : validSymbols l = l :=
  List.filter_eq_self.mpr fun v hv => by simpa using le_one_iff.mpr (h v hv)

/-- The registers once the symbols l are used up (R172, R173, R176). -/
def Block.symbolsDone (l : List Byte) (b : Block) : Block :=
  { b with
    cnt := b.cnt + BitVec.ofNat 16 l.length
    sym := (validSymbols l).getLast?.getD b.sym
    warn := b.warn || decide ((validSymbols l).length < l.length) }

@[simp] theorem symbolsDone_cmd (l : List Byte) (b : Block) : (b.symbolsDone l).cmd = b.cmd := rfl

theorem symbolsDone_nil (b : Block) : b.symbolsDone [] = b := by
  simp [Block.symbolsDone, validSymbols]

theorem add_one_add_ofNat (x : Half) (n : Nat) :
    x + 1 + BitVec.ofNat 16 n = x + BitVec.ofNat 16 (n + 1) := by
  rw [BitVec.ofNat_add, BitVec.add_comm (BitVec.ofNat 16 n), BitVec.add_assoc]
  rfl

theorem symbolsDone_cons_valid (hv : v = 0 ∨ v = 1) (hb : b.haveByte = false) (hchip : b.chip = 0)
    (l : List Byte) : (b.symbolDone v).symbolsDone l = b.symbolsDone (v :: l) := by
  simp only [Block.symbolsDone, Block.symbolDone, validSymbols_cons_valid hv, add_one_add_ofNat,
    List.length_cons, List.getLast?_cons, Option.getD_some, Nat.add_lt_add_iff_right, hb, hchip]

theorem symbolsDone_cons_invalid (hv : 1 < v.toNat) (l : List Byte) :
    b.skipSymbol.symbolsDone l = b.symbolsDone (v :: l) := by
  have hskipped : (validSymbols l).length < l.length + 1 := Nat.lt_succ_of_le (length_validSymbols_le l)
  simp only [Block.symbolsDone, Block.skipSymbol, validSymbols_cons_invalid hv, add_one_add_ofNat,
    List.length_cons, hskipped, Bool.true_or, decide_true, Bool.or_true]

theorem normalise_enc_below (hp : b.phase = .enc) (hcnt : b.cnt.toNat < (countField b.cmd).toNat) :
    normalise c b = b :=
  Block.BelowLimit.normalise_eq
    ⟨by simpa [limit, hp] using hcnt, by simp [hp]⟩

/-- Symbols that are valid or skipped, one after the other. -/
theorem produces_symbols (l : List Byte) (hp : b.phase = .enc) (hb : b.haveByte = false)
    (hchip : b.chip = 0)
    (hcnt : b.cnt.toNat + l.length ≤ (countField b.cmd).toNat)
    (hl : ∀ v ∈ l, 1 < v.toNat → c.skipBadSymbol = true) :
    Produces c (l.length + 4 * (validSymbols l).length) (normalise c b) l (normalise c (b.symbolsDone l))
      (Reference.chipBeats (Reference.encodeBits ((validSymbols l).map Reference.symbolBit))) := by
  induction l generalizing b with
  | nil => rw [symbolsDone_nil]; exact produces_nothing c _
  | cons v l ih =>
    rw [List.length_cons] at hcnt
    have hlt : b.cnt.toNat < (countField b.cmd).toNat := by omega
    have hnext : (b.cnt + 1).toNat = b.cnt.toNat + 1 := toNat_add_one_of_lt hlt (half_toNat_le _)
    have hl' : ∀ v ∈ l, 1 < v.toNat → c.skipBadSymbol = true := fun u hu => hl u (List.mem_cons_of_mem _ hu)
    rw [normalise_enc_below hp hlt]
    by_cases hv : 1 < v.toNat
    · have hrest := ih (b := b.skipSymbol) hp hb hchip
        (by simp only [Block.skipSymbol_cnt, Block.skipSymbol_cmd]; omega) hl'
      rw [symbolsDone_cons_invalid hv] at hrest
      rw [validSymbols_cons_invalid hv, List.length_cons]
      exact (produces_skip hp hb hv (hl v List.mem_cons_self hv)).append hrest (by omega) rfl rfl
    · have hv : v = 0 ∨ v = 1 := le_one_iff.mp (by omega)
      have hrest := ih (b := b.symbolDone v) hp rfl rfl (by simp only [Block.symbolDone]; omega) hl'
      rw [symbolsDone_cons_valid hv hb hchip] at hrest
      rw [validSymbols_cons_valid hv, List.length_cons, List.length_cons]
      exact (produces_symbol hp hb hv).append hrest (by omega) rfl List.map_append.symm

/-- The registers once n symbols more are drained (R175). -/
def Block.drained (n : Nat) (b : Block) : Block := { b with cnt := b.cnt + BitVec.ofNat 16 n }

theorem drained_zero (b : Block) : b.drained 0 = b := by simp [Block.drained]

/-- Symbols that are drained, one after the other (R175). -/
theorem produces_drain (l : List Byte) (hp : b.phase = .eDrain) (hb : b.haveByte = false)
    (hcnt : b.cnt.toNat + l.length ≤ (countField b.cmd).toNat) :
    Produces c l.length (normalise c b) l (normalise c (b.drained l.length)) [] := by
  induction l generalizing b with
  | nil => rw [List.length_nil, drained_zero]; exact produces_nothing c _
  | cons v l ih =>
    rw [List.length_cons] at hcnt
    have hlt : b.cnt.toNat < (countField b.cmd).toNat := by omega
    have hnext : (b.cnt + 1).toNat = b.cnt.toNat + 1 := toNat_add_one_of_lt hlt (half_toNat_le _)
    have hbelow : b.BelowLimit c := ⟨by simpa [limit, hp] using hlt, by simp [hp]⟩
    have hpop := produces_pop (c := c) (Block.inReady_iff.mpr ⟨.inr (.inl hp), hb⟩) v
    rw [popEffect_eDrain hp] at hpop
    have hrest := ih (b := b.countUp) hp hb (by simp only [Block.countUp_cnt, Block.countUp_cmd]; omega)
    rw [hbelow.normalise_eq, List.length_cons, Block.drained, ← add_one_add_ofNat]
    exact hpop.append hrest (Nat.add_comm ..) rfl rfl

/-! ### The packets (R177) -/

theorem zero_add_ofNat_toNat {n : Nat} (h : n ≤ 65535) : (0 + BitVec.ofNat 16 n : Half).toNat = n := by
  simp
  omega

theorem zero_add_ofNat_length {l : List Byte} {count : Half} (h : l.length = count.toNat) :
    0 + BitVec.ofNat 16 l.length = count := by
  simp [h]

/-- The whole of `ENC` on symbols that are valid or skipped. -/
theorem encPacket {count : Half} {symbols rest : List Byte} (hidle : s.block.phase = .idle)
    (hready : s.sinkReady = true) (hsched : s.schedule = []) (hin : s.input = symbols ++ rest)
    (hlen : symbols.length = count.toNat)
    (hvalid : ∀ v ∈ symbols, 1 < v.toNat → s.config.skipBadSymbol = true) :
    ∃ t : State, exec (.enc count) s = .next t ∧
      Host.Core.run core (symbols.length + 4 * (validSymbols symbols).length + 1) t = .next
        { s with
          input := rest
          output := s.output
            ++ Reference.chipBeats (Reference.encodeBits ((validSymbols symbols).map Reference.symbolBit))
            ++ [.done 0x00]
          block :=
            { s.block with
              cmd := encode (.enc count), rep := 0, cnt := count, chip := 0, haveByte := false, acc := 0
              ecode := 0
              sym := (validSymbols symbols).getLast?.getD s.block.sym
              warn := s.block.warn || decide ((validSymbols symbols).length < symbols.length) } } := by
  have hparts := produces_symbols (c := s.config) (b := s.block.start (.enc count)) symbols rfl rfl rfl
    (by simp [Block.start, hlen]) hvalid
  have hcnt : ((s.block.start (.enc count)).symbolsDone symbols).cnt = count := zero_add_ofNat_length hlen
  rw [normalise_enc (b := (s.block.start (.enc count)).symbolsDone symbols) rfl,
    if_pos ⟨rfl, by rw [hcnt]; simp [Block.start, Block.symbolsDone]⟩] at hparts
  obtain ⟨t, hexec, hrun⟩ := packet_of_produces hidle hready hsched hin hparts rfl
  refine ⟨t, hexec, hrun.trans ?_⟩
  simp only [Block.start, Block.symbolsDone, Block.setPhase, Block.latchCommand, hidle,
    zero_add_ofNat_length hlen]

/-- Settles O30: with no symbol invalid every one is encoded and none is skipped. -/
theorem encPacketIsEncodeBits : Obligations.EncPacketIsEncodeBits := by
  intro count s symbols rest hidle hready hsched hin hlen hvalid
  have hpacket := encPacket hidle hready hsched hin hlen fun v hv h =>
    absurd h (Nat.not_lt.mpr (le_one_iff.mpr (hvalid v hv)))
  rw [validSymbols_eq_self hvalid, hlen] at hpacket
  simp only [Nat.lt_irrefl, decide_false, Bool.or_false] at hpacket
  have hsteps : 5 * count.toNat + 1 = count.toNat + 4 * count.toNat + 1 := by omega
  rwa [hsteps]

/-- Settles O32: the valid symbols are encoded, and the others are counted alone. -/
theorem encPacketSkipsInvalidSymbols : Obligations.EncPacketSkipsInvalidSymbols := by
  rintro count s symbols rest - hidle hready hsched hskip hin hlen rfl
  exact encPacket hidle hready hsched hin hlen fun _ _ _ => hskip

/-- The registers once the symbols `good` are encoded, v is refused and the symbols `later` are drained. -/
def Block.refused (good : List Byte) (v : Byte) (later : List Byte) (b : Block) : Block :=
  (rejectSymbol v (b.symbolsDone good)).drained later.length

/-- Valid symbols, an invalid one that is refused, and the rest drained (R174, R175). -/
theorem produces_refused (good later : List Byte) (hp : b.phase = .enc) (hb : b.haveByte = false)
    (hchip : b.chip = 0) (hskip : c.skipBadSymbol = false) (hgood : ∀ v ∈ good, v = 0 ∨ v = 1) (hv : 1 < v.toNat)
    (hcnt : b.cnt.toNat + (good.length + 1 + later.length) ≤ (countField b.cmd).toNat) :
    Produces c (5 * good.length + 1 + later.length) (normalise c b) (good ++ v :: later)
      (normalise c (b.refused good v later))
      (Reference.chipBeats (Reference.encodeBits (good.map Reference.symbolBit))) := by
  have hcount : (b.symbolsDone good).cnt.toNat = b.cnt.toNat + good.length := by
    have := half_toNat_le (countField b.cmd)
    simp only [Block.symbolsDone, BitVec.toNat_add, BitVec.toNat_ofNat]
    omega
  have hcount' : ((b.symbolsDone good).cnt + 1).toNat = b.cnt.toNat + good.length + 1 := by
    rw [toNat_add_one_of_lt (n := (countField b.cmd).toNat) (by omega) (half_toNat_le _), hcount]
  have hsymbols := produces_symbols (c := c) good hp hb hchip (by omega) fun u hu h =>
    absurd h (Nat.not_lt.mpr (le_one_iff.mpr (hgood u hu)))
  rw [validSymbols_eq_self hgood,
    normalise_enc_below (b := b.symbolsDone good) hp (by rw [hcount, symbolsDone_cmd]; omega)] at hsymbols
  have hpop := produces_pop (c := c) (b := b.symbolsDone good) (Block.inReady_iff.mpr ⟨.inl hp, hb⟩) v
  rw [popEffect_enc (by exact hp), takeSymbol_reject hv hskip] at hpop
  have hdrain := produces_drain (c := c) (b := rejectSymbol v (b.symbolsDone good)) later rfl
    ((rejectSymbol_haveByte ..).trans hb)
    (by rw [rejectSymbol_cnt, rejectSymbol_cmd, hcount', symbolsDone_cmd]; omega)
  exact hsymbols.append (hpop.append hdrain rfl rfl rfl) (by omega) rfl (List.append_nil _)

/-- Settles O31: the run of `produces_refused`, whose exception End reports. -/
theorem encPacketIsErrorOnInvalidSymbol : Obligations.EncPacketIsErrorOnInvalidSymbol := by
  intro count s good bad later rest hidle hready hsched hskip hin hlen hgood hbad
  have hparts := produces_refused (b := s.block.start (.enc count)) good later rfl rfl rfl hskip hgood hbad (by simp [Block.start, hlen])
  have hcnt : 0 + BitVec.ofNat 16 good.length + 1 + BitVec.ofNat 16 later.length = count := by
    refine BitVec.eq_of_toNat_eq ?_
    have := count.isLt
    simp
    omega
  have hinfo : (0 + BitVec.ofNat 16 good.length : Half).toNat = good.length :=
    zero_add_ofNat_toNat (by have := half_toNat_le count; omega)
  have hfinal : ((s.block.start (.enc count)).refused good bad later).cnt.toNat =
      (countField ((s.block.start (.enc count)).refused good bad later).cmd).toNat := by
    rw [Block.refused, Block.drained, rejectSymbol_cmd, symbolsDone_cmd, rejectSymbol_cnt, Block.start,
      Block.setPhase_cmd, Block.latchCommand_cmd, countField_encode_enc]
    exact congrArg BitVec.toNat hcnt
  rw [normalise_eDrain (b := (s.block.start (.enc count)).refused good bad later) rfl, if_pos hfinal]
    at hparts
  obtain ⟨t, hexec, hrun⟩ := packet_of_produces hidle hready hsched (rest := rest) (by simpa using hin)
    hparts rfl
  refine ⟨t, hexec, hrun.trans ?_⟩
  simp only [Block.refused, rejectSymbol_eq, Block.drained, Block.start, Block.symbolsDone,
    Block.setPhase, Block.latchCommand, hidle, validSymbols_eq_self hgood, hcnt, hinfo, Nat.lt_irrefl,
    decide_false, Bool.or_false]

end Sys2Proof.Machine
end

section
/-! PROOFS. The packets of BURST (42_line_encoder.md R181, O34) and FRAME (43_frame_builder.md R207, O41), each part a loop
of Emits or of Pops and Emits, and that every command ends (R142, R143, O57). -/

namespace Sys2Proof.Machine

variable {c : Config} {b : Block} {s : State} {n : Nat}

/-! ### BURST -/

/-- The chip on `out_data` in `BURST` (R179). -/
theorem outData_burst (hp : b.phase = .burst) :
    b.outData c = ((Reference.repetition c (codeField b.cmd)).map zext8)[b.cnt.toNat]? := by
  simp only [Block.outData, hp]
  rw [burstChipIsTheRepetition, List.getElem?_map]

/-- One repetition, which steps `REP` (R180). -/
theorem produces_repetition (hc : c.Admissible) (hp : b.phase = .burst) (hcnt : b.cnt = 0)
    (hrep : b.rep.toNat < c.repeatNum) :
    Produces c c.repLen (normalise c b) [] (normalise c b.nextRepetition)
      (Reference.chipBeats (Reference.repetition c (codeField b.cmd))) := by
  have hle := repLen_le hc
  have hlen : ((Reference.repetition c (codeField b.cmd)).map zext8).length = c.repLen := by
    rw [List.length_map, length_repetition]
  have hdata (k : Nat) (hk : k < ((Reference.repetition c (codeField b.cmd)).map zext8).length) :
      (b.atCount k).outData c = ((Reference.repetition c (codeField b.cmd)).map zext8)[k]? := by
    rw [outData_burst (b := b.atCount k) hp, Block.atCount_cnt_toNat (by omega)]
    rfl
  have hrun := produces_elements (by simp [Phase.Counts, hp]) (by simp only [limit, hp, hlen]) (by omega)
    (fun _ => hrep) hcnt hdata
  have hlast : advance c (b.atCount c.repLen) = b.nextRepetition := by
    have hphase : (b.atCount c.repLen).phase = .burst := hp
    simp only [advance, hphase, Block.atCount_cnt_toNat hle, if_true]
    exact if_neg hrep.ne
  rw [hlen, normalise_of_advance hlast, ← chipBeats_eq] at hrun
  exact hrun

/-- The registers once n repetitions more are complete. -/
def Block.repeated (n : Nat) (b : Block) : Block := { b with rep := b.rep + BitVec.ofNat 16 n }

theorem repeated_zero (b : Block) : b.repeated 0 = b := by simp [Block.repeated]

theorem repeated_nextRepetition (hcnt : b.cnt = 0) (n : Nat) :
    b.nextRepetition.repeated n = b.repeated (n + 1) := by
  rw [Block.repeated, Block.repeated, ← add_one_add_ofNat, ← show (0 : Half) = b.cnt from hcnt.symm]
  rfl

/-- Repetitions, one after the other (R178). -/
theorem produces_repetitions (hc : c.Admissible) (n : Nat) (hp : b.phase = .burst) (hcnt : b.cnt = 0)
    (hrep : b.rep.toNat + n ≤ c.repeatNum) :
    Produces c (n * c.repLen) (normalise c b) [] (normalise c (b.repeated n))
      (Reference.chipBeats (List.replicate n (Reference.repetition c (codeField b.cmd))).flatten) := by
  induction n generalizing b with
  | zero => rw [repeated_zero, Nat.zero_mul]; exact produces_nothing c _
  | succ n ih =>
    have hlt : b.rep.toNat < c.repeatNum := by omega
    have hnext : b.nextRepetition.rep.toNat = b.rep.toNat + 1 := toNat_add_one_of_lt hlt hc.1
    have hrest := ih (b := b.nextRepetition) hp rfl (by omega)
    rw [repeated_nextRepetition hcnt] at hrest
    refine (produces_repetition hc hp hcnt hlt).append hrest ?_ rfl ?_
    · rw [Nat.succ_mul, Nat.add_comm]
    · rw [List.replicate_succ, List.flatten_cons]
      exact List.map_append.symm

/-- Settles O34: `REPEAT_NUM` repetitions, none included. -/
theorem burstPacketIsBuildPayload : Obligations.BurstPacketIsBuildPayload := by
  intro code s hc hidle hready hsched
  have hparts := produces_repetitions (b := s.block.start (.burst code)) hc s.config.repeatNum rfl rfl
    (by simp [Block.start])
  have hrep : (0 + BitVec.ofNat 16 s.config.repeatNum : Half).toNat = s.config.repeatNum :=
    zero_add_ofNat_toNat hc.1
  rw [normalise_burst (b := (s.block.start (.burst code)).repeated _) rfl, if_pos (by exact hrep)] at hparts
  obtain ⟨t, hexec, hrun⟩ := packet_of_produces hidle hready hsched (x := []) rfl hparts rfl
  refine ⟨t, hexec, hrun.trans ?_⟩
  simp [Block.start, Block.repeated, Block.setPhase, Block.latchCommand, hidle, Reference.buildPayload]

/-! ### FRAME: the parts with a fixed content -/

/-- A part of a frame that only counts, from its first element to the next part. -/
theorem produces_part {p q : Phase} {l : List Byte} (hp : p ∈ [Phase.fLead, .fHdr, .fCsum])
    (hlimit : limit c (b.enterPhase p) = some l.length) (hlen : l.length ≤ 65535)
    (hd : ∀ k < l.length, ((b.enterPhase p).atCount k).outData c = l[k]?)
    (hnext : advance c ((b.enterPhase p).atCount l.length) = b.enterPhase q) :
    Produces c l.length (normalise c (b.enterPhase p)) [] (normalise c (b.enterPhase q))
      (Reference.byteBeats l) := by
  have hcounts : p.Counts := by
    simp only [List.mem_cons, List.not_mem_nil, or_false] at hp
    obtain rfl | rfl | rfl := hp <;> simp [Phase.Counts]
  have hburst : p ≠ .burst := by
    rintro rfl
    simp at hp
  rw [← normalise_of_advance hnext]
  exact produces_elements hcounts hlimit hlen (fun h => absurd h hburst) rfl hd

/-- The leading silence (R201). -/
theorem produces_lead (c : Config) (b : Block) :
    Produces c 10 (normalise c (b.enterPhase .fLead)) [] (normalise c (b.enterPhase .fPre))
      (Reference.byteBeats Reference.silence) :=
  produces_part (l := Reference.silence) (by decide) rfl (by decide)
    (fun k hk => (List.getElem?_replicate_of_lt hk).symm) rfl

/-- The trailing silence (R206). -/
theorem produces_trail (c : Config) (b : Block) :
    Produces c 10 (normalise c (b.enterPhase .fTrail)) []
      (((b.enterPhase .fTrail).atCount 10).setPhase .finish) (Reference.byteBeats Reference.silence) := by
  have hrun := produces_elements (c := c) (b := b.enterPhase .fTrail) (l := Reference.silence)
    (by simp [Phase.Counts]) rfl (by decide) nofun rfl fun k hk => (List.getElem?_replicate_of_lt hk).symm
  rwa [normalise_fTrail (b := (b.enterPhase .fTrail).atCount _) rfl, if_pos (by rfl)] at hrun

/-- The length header, where there is one (R203). -/
def headerBytes (hdr : Bool) (paylen : Byte) : List Byte := if hdr then [0x00, paylen, 0x00, paylen] else []

/-- The checksum, where there is one (R205). -/
def checksumBytes (csum : Bool) (acc : Byte) : List Byte := if csum then [acc] else []

theorem length_headerBytes (hdr : Bool) (paylen : Byte) :
    (headerBytes hdr paylen).length = 4 * hdr.toNat := by
  cases hdr <;> rfl

theorem length_checksumBytes (csum : Bool) (acc : Byte) : (checksumBytes csum acc).length = csum.toNat := by
  cases csum <;> rfl

theorem buildFrame_eq (pre pay : List Byte) (hdr csum : Bool) :
    Reference.buildFrame pre pay hdr csum =
      Reference.silence ++ pre ++ headerBytes hdr (BitVec.ofNat 8 pay.length) ++ pay ++
        checksumBytes csum (Reference.checksum pay) ++ Reference.silence := rfl

theorem produces_header (c : Config) (b : Block) :
    Produces c (4 * (hdrField b.cmd).toNat) (normalise c (b.enterPhase .fHdr)) []
      (normalise c (b.enterPhase .fPay))
      (Reference.byteBeats (headerBytes (hdrField b.cmd) (paylenField b.cmd))) := by
  rw [← length_headerBytes (hdrField b.cmd) (paylenField b.cmd)]
  cases hh : hdrField b.cmd
  · exact produces_part (by decide) (by simp [limit, hh, headerBytes]) (by simp [headerBytes])
      (by simp [headerBytes]) (if_pos (.inl hh))
  · refine produces_part (by decide) (by simp [limit, hh, headerBytes, Config.hdrLen])
      (by simp [headerBytes]) (fun k hk => ?_) (if_pos (.inr rfl))
    have hk : k < 4 := hk
    interval_cases k <;> simp [Block.outData, Block.atCount, headerByte, headerBytes]

theorem produces_checksum (c : Config) (b : Block) :
    Produces c (csumField b.cmd).toNat (normalise c (b.enterPhase .fCsum)) []
      (normalise c (b.enterPhase .fTrail))
      (Reference.byteBeats (checksumBytes (csumField b.cmd) b.acc)) := by
  rw [← length_checksumBytes (csumField b.cmd) b.acc]
  cases hs : csumField b.cmd
  · exact produces_part (by decide) (by simp [limit, hs, checksumBytes]) (by simp [checksumBytes])
      (by simp [checksumBytes]) (if_pos (.inl hs))
  · refine produces_part (by decide) (by simp [limit, hs, checksumBytes]) (by simp [checksumBytes])
      (fun k hk => ?_) (if_pos (.inr rfl))
    obtain rfl : k = 0 := Nat.lt_one_iff.mp hk
    rfl

/-! ### FRAME: the parts that pass bytes on -/

/-- The registers once byte v is passed on: summed in `F_PAY` alone (R202, R204). -/
def Block.byteDone (v : Byte) (b : Block) : Block :=
  { b with
    sym := v, haveByte := false, cnt := b.cnt + 1
    acc := if b.phase = .fPay then addChecksum b.acc v else b.acc }

/-- The registers once the bytes l are passed on. -/
def Block.bytesDone (l : List Byte) (b : Block) : Block :=
  { b with
    cnt := b.cnt + BitVec.ofNat 16 l.length
    sym := l.getLast?.getD b.sym
    acc := if b.phase = .fPay then l.foldl addChecksum b.acc else b.acc }

theorem bytesDone_nil (b : Block) : b.bytesDone [] = b := by simp [Block.bytesDone]

theorem bytesDone_cons (hb : b.haveByte = false) (v : Byte) (l : List Byte) :
    (b.byteDone v).bytesDone l = b.bytesDone (v :: l) := by
  simp only [Block.bytesDone, Block.byteDone, add_one_add_ofNat, List.length_cons, List.getLast?_cons,
    Option.getD_some, List.foldl_cons, hb]
  split <;> rfl

/-- One byte: a Pop and an Emit. -/
theorem produces_byte (hp : b.phase = .fPre ∨ b.phase = .fPay) (hb : b.haveByte = false) (v : Byte) :
    Produces c 2 b [v] (normalise c (b.byteDone v)) [.data v] := by
  have hpop := produces_pop (c := c) (Block.inReady_iff.mpr ⟨.inr (.inr hp), hb⟩) v
  rw [popEffect_frame hp, normalise_have (b := b.latchByte v) (.inr hp) rfl] at hpop
  have hv : (b.latchByte v).outValid = true := Block.outValid_iff.mpr (.inr ⟨by simpa using .inr hp, rfl⟩)
  have hemit := produces_emit (c := c) (b := b.latchByte v) (v := v) hv
    (by obtain hp | hp := hp <;> simp [hp])
    (by obtain hp | hp := hp <;> simp [Block.outData, hp])
  have heffect : emitEffect (b.latchByte v) = b.byteDone v := by
    obtain hp | hp := hp
    · rw [emitEffect_fPre (by exact hp), Block.byteDone, if_neg (by simp [hp])]
      rfl
    · rw [emitEffect_fPay (by exact hp), Block.byteDone, if_pos hp]
      rfl
  rw [heffect] at hemit
  exact hpop.trans hemit

/-- Bytes, one after the other. -/
theorem produces_bytes {n : Nat} (l : List Byte) (hp : b.phase = .fPre ∨ b.phase = .fPay)
    (hb : b.haveByte = false) (hlimit : limit c b = some n) (hn : n ≤ 65535) (hcnt : b.cnt.toNat + l.length ≤ n) :
    Produces c (2 * l.length) (normalise c b) l (normalise c (b.bytesDone l)) (Reference.byteBeats l) := by
  induction l generalizing b with
  | nil => rw [bytesDone_nil]; exact produces_nothing c _
  | cons v l ih =>
    rw [List.length_cons] at hcnt
    have hlt : b.cnt.toNat < n := by omega
    have hnext : (b.cnt + 1).toNat = b.cnt.toNat + 1 := toNat_add_one_of_lt hlt hn
    have hbelow : b.BelowLimit c := by
      refine ⟨fun m hm => ?_, fun h => ?_⟩
      · obtain rfl : n = m := Option.some_inj.mp (hlimit.symm.trans hm)
        exact hlt
      · simp [h] at hp
    have hrest := ih (b := b.byteDone v) hp rfl hlimit (by simp only [Block.byteDone]; omega)
    rw [bytesDone_cons hb] at hrest
    rw [hbelow.normalise_eq, List.length_cons]
    exact (produces_byte hp hb v).append hrest (by omega) rfl rfl

/-- `CNT` once the bytes of a part are passed on. -/
theorem bytesDone_enterPhase_cnt {n : Byte} {l : List Byte} (h : l.length = n.toNat) (p : Phase) :
    ((b.enterPhase p).bytesDone l).cnt.toNat = n.toNat := by
  have hcnt := zero_add_ofNat_toNat (n := l.length) (by have := byte_toNat_le n; omega)
  exact hcnt.trans h

/-- The preamble (R202). -/
theorem produces_preamble {pre : List Byte} (c : Config) (hb : b.haveByte = false)
    (hlen : pre.length = (prelenField b.cmd).toNat) :
    Produces c (2 * pre.length) (normalise c (b.enterPhase .fPre)) pre
      (normalise c (((b.enterPhase .fPre).bytesDone pre).enterPhase .fHdr)) (Reference.byteBeats pre) := by
  have hnext : advance c ((b.enterPhase .fPre).bytesDone pre) =
      ((b.enterPhase .fPre).bytesDone pre).enterPhase .fHdr := if_pos ⟨hb, bytesDone_enterPhase_cnt hlen _⟩
  rw [← normalise_of_advance hnext]
  exact produces_bytes pre (.inl rfl) hb rfl (byte_toNat_le _) (by simp [hlen])

/-- The payload (R204). -/
theorem produces_payload {pay : List Byte} (c : Config) (hb : b.haveByte = false)
    (hlen : pay.length = (paylenField b.cmd).toNat) :
    Produces c (2 * pay.length) (normalise c (b.enterPhase .fPay)) pay
      (normalise c (((b.enterPhase .fPay).bytesDone pay).enterPhase .fCsum)) (Reference.byteBeats pay) := by
  have hnext : advance c ((b.enterPhase .fPay).bytesDone pay) =
      ((b.enterPhase .fPay).bytesDone pay).enterPhase .fCsum := if_pos ⟨hb, bytesDone_enterPhase_cnt hlen _⟩
  rw [← normalise_of_advance hnext]
  exact produces_bytes pay (.inr rfl) hb rfl (byte_toNat_le _) (by simp [hlen])

/-! ### FRAME: the whole -/

/-- Summing byte by byte modulo 256 is summing once and reducing (R209). -/
theorem foldl_addChecksum (l : List Byte) (acc : Byte) :
    l.foldl addChecksum acc = BitVec.ofNat 8 (acc.toNat + (l.map BitVec.toNat).sum) := by
  induction l generalizing acc with
  | nil => simp
  | cons v l ih =>
    rw [List.foldl_cons, ih, List.map_cons, List.sum_cons, addChecksum_eq]
    refine BitVec.eq_of_toNat_eq ?_
    simp
    omega

theorem foldl_addChecksum_zero (pay : List Byte) : pay.foldl addChecksum 0 = Reference.checksum pay := by
  rw [foldl_addChecksum, Reference.checksum]
  refine BitVec.eq_of_toNat_eq ?_
  simp

/-- The registers of a frame that has passed on its preamble and its payload. -/
def Block.framed (pre pay : List Byte) (b : Block) : Block :=
  (((b.enterPhase .fPre).bytesDone pre).enterPhase .fPay).bytesDone pay

/-- All parts of a frame, from the leading to the trailing silence (R207). -/
theorem produces_frame {pre pay : List Byte} (c : Config) (hb : b.haveByte = false) (hacc : b.acc = 0)
    (hpre : pre.length = (prelenField b.cmd).toNat) (hpay : pay.length = (paylenField b.cmd).toNat) :
    Produces c
      (pre.length + pay.length +
        (Reference.buildFrame pre pay (hdrField b.cmd) (csumField b.cmd)).length)
      (normalise c (b.enterPhase .fLead)) (pre ++ pay)
      ((((b.framed pre pay).enterPhase .fTrail).atCount 10).setPhase .finish)
      (Reference.byteBeats (Reference.buildFrame pre pay (hdrField b.cmd) (csumField b.cmd))) := by
  have hlead := produces_lead c b
  have hpreamble := produces_preamble c hb hpre
  have hheader : Produces c (4 * (hdrField b.cmd).toNat) _ [] _
      (Reference.byteBeats (headerBytes (hdrField b.cmd) (paylenField b.cmd))) :=
    produces_header c ((b.enterPhase .fPre).bytesDone pre)
  have hpayload := produces_payload (b := (b.enterPhase .fPre).bytesDone pre) c hb hpay
  have hsum : (b.framed pre pay).acc = Reference.checksum pay := by
    rw [← foldl_addChecksum_zero, ← hacc]
    rfl
  have hchecksum : Produces c (csumField b.cmd).toNat _ [] _
      (Reference.byteBeats (checksumBytes (csumField b.cmd) (Reference.checksum pay))) :=
    hsum ▸ produces_checksum c (b.framed pre pay)
  have htrail := produces_trail c (b.framed pre pay)
  have hpaylen : BitVec.ofNat 8 pay.length = paylenField b.cmd := by
    rw [hpay, BitVec.ofNat_toNat, BitVec.setWidth_eq]
  refine (hlead.trans (hpreamble.trans (hheader.trans (hpayload.trans (hchecksum.trans htrail))))).cast
    ?_ (by simp) ?_
  · rw [length_buildFrame]
    omega
  · simp only [buildFrame_eq, hpaylen, Reference.byteBeats, List.map_append, List.append_assoc]

/-- Settles O41: the parts of the frame in order, and End. -/
theorem framePacketIsBuildFrame : Obligations.FramePacketIsBuildFrame := by
  intro prelen paylen hdr csum s pre pay rest hidle hready hsched hin hpre hpay
  have hparts := produces_frame (b := s.block.start (.frame prelen paylen hdr csum)) s.config rfl rfl
    (pre := pre) (pay := pay) (by simpa [Block.start] using hpre) (by simpa [Block.start] using hpay)
  have hcmd : (s.block.start (.frame prelen paylen hdr csum)).cmd =
      encode (.frame prelen paylen hdr csum) := rfl
  have hstart : (s.block.start (.frame prelen paylen hdr csum)).enterPhase .fLead =
      s.block.start (.frame prelen paylen hdr csum) := rfl
  rw [hcmd, hdrField_encode_frame, csumField_encode_frame, hstart] at hparts
  obtain ⟨t, hexec, hrun⟩ := packet_of_produces hidle hready hsched hin hparts rfl
  refine ⟨t, hexec, hrun.trans ?_⟩
  have hsym : pay.getLast?.getD (pre.getLast?.getD s.block.sym) =
      (pre ++ pay).getLast?.getD s.block.sym := by
    rw [List.getLast?_append]
    cases pay.getLast? <;> rfl
  simp only [Block.framed, Block.bytesDone, Block.atCount, Block.enterPhase, Block.setPhase, Block.start,
    Block.latchCommand, hidle, foldl_addChecksum_zero, hsym, reduceCtorEq, if_true, if_false]
  rfl

/-! ### Every command ends (R142, R143) -/

/-- What O57 says of one command. -/
def EndsWithItsNeed (i : Instr) (s : State) : Prop :=
  ∃ (data : List Byte) (code : Byte) (t u : State), exec i s = .next t ∧
    Host.Core.run core (need i + data.length + 1) t = .next u ∧
    u.block.phase = .idle ∧ u.input = s.input.drop (need i) ∧
    u.output = s.output ++ Reference.byteBeats data ++ [.done code] ∧
    u.commands = s.commands ∧ (code = 0x00 ∨ (code = 0x01 ∧ ∃ count, i = .enc count))

/-- A packet whose run takes the command's need and one step more for each element. -/
theorem endsWithItsNeed {i : Instr} {data : List Byte} {code : Byte} {t u : State}
    (hexec : exec i s = .next t) (hrun : Host.Core.run core n t = .next u) (hn : n = need i + data.length + 1)
    (hidle : u.block.phase = .idle) (hin : u.input = s.input.drop (need i))
    (hout : u.output = s.output ++ Reference.byteBeats data ++ [.done code])
    (hcmd : u.commands = s.commands)
    (hcode : code = 0x00 ∨ (code = 0x01 ∧ ∃ count, i = .enc count)) : EndsWithItsNeed i s :=
  ⟨data, code, t, u, hexec, hn ▸ hrun, hidle, hin, hout, hcmd, hcode⟩

theorem length_encodeBits (bits : List Chip) : (Reference.encodeBits bits).length = 4 * bits.length := by
  rw [encodeBits_eq, List.length_flatMap]
  simp [Function.comp_def, Nat.mul_comm]

/-- Symbols with an invalid one split at the first. -/
theorem exists_first_invalid {l : List Byte} (h : ¬∀ v ∈ l, v = 0 ∨ v = 1) :
    ∃ good bad later, l = good ++ bad :: later ∧ (∀ v ∈ good, v = 0 ∨ v = 1) ∧ 1 < bad.toNat := by
  induction l with
  | nil => exact absurd nofun h
  | cons v l ih =>
    by_cases hv : v = 0 ∨ v = 1
    · obtain ⟨good, bad, later, rfl, hgood, hbad⟩ := ih fun hl => h (List.forall_mem_cons.mpr ⟨hv, hl⟩)
      exact ⟨v :: good, bad, later, rfl, List.forall_mem_cons.mpr ⟨hv, hgood⟩, hbad⟩
    · exact ⟨[], v, l, rfl, nofun, by rw [← le_one_iff] at hv; omega⟩

theorem enc_endsWithItsNeed {count : Half} (hidle : s.block.phase = .idle) (hready : s.sinkReady = true)
    (hsched : s.schedule = []) (hneed : count.toNat ≤ s.input.length) : EndsWithItsNeed (.enc count) s := by
  have hin : s.input = s.input.take count.toNat ++ s.input.drop count.toNat :=
    (List.take_append_drop ..).symm
  have hlen : (s.input.take count.toNat).length = count.toNat := List.length_take_of_le hneed
  generalize s.input.take count.toNat = symbols at hin hlen
  by_cases hall : ∀ v ∈ symbols, 1 < v.toNat → s.config.skipBadSymbol = true
  · obtain ⟨t, hexec, hrun⟩ := encPacket hidle hready hsched hin hlen hall
    rw [chipBeats_eq] at hrun
    refine endsWithItsNeed hexec hrun ?_ hidle rfl rfl rfl (.inl rfl)
    rw [List.length_map, length_encodeBits, List.length_map, hlen, need]
  · obtain ⟨v, hv, hinvalid, hskip⟩ : ∃ v ∈ symbols, 1 < v.toNat ∧ ¬s.config.skipBadSymbol = true := by
      simpa using hall
    obtain ⟨good, bad, later, rfl, hgood, hbad⟩ := exists_first_invalid fun h =>
      absurd (le_one_iff.mpr (h v hv)) (Nat.not_le.mpr hinvalid)
    obtain ⟨t, hexec, hrun⟩ := encPacketIsErrorOnInvalidSymbol count s good bad later _ hidle hready hsched
      (Bool.eq_false_iff.mpr hskip) (by simpa using hin)
      (by rw [List.length_append, List.length_cons] at hlen; omega) hgood hbad
    rw [chipBeats_eq] at hrun
    refine endsWithItsNeed hexec hrun ?_ hidle rfl rfl rfl (.inr ⟨rfl, count, rfl⟩)
    rw [List.length_map, length_encodeBits, List.length_map, need, ← hlen, List.length_append,
      List.length_cons]
    omega

/-- Settles O57: the packets of the four commands, by what each consumes. -/
theorem everyCommandConsumesItsNeedAndEnds : Obligations.EveryCommandConsumesItsNeedAndEnds := by
  intro i s hc hidle hready hsched hneed
  cases i with
  | decomp code =>
    obtain ⟨⟨t, hexec, hrun⟩, hlen, -⟩ := decompPacketIsDecompose code s hidle hready hsched
    rw [chipBeats_eq] at hrun
    exact endsWithItsNeed hexec hrun rfl hidle rfl rfl rfl (.inl rfl)
  | enc count => exact enc_endsWithItsNeed hidle hready hsched hneed
  | burst code =>
    obtain ⟨t, hexec, hrun⟩ := burstPacketIsBuildPayload code s hc hidle hready hsched
    rw [chipBeats_eq] at hrun
    refine endsWithItsNeed hexec hrun ?_ hidle rfl rfl rfl (.inl rfl)
    rw [List.length_map, burstLengthIsFixed, need, Nat.zero_add]
    rfl
  | frame prelen paylen hdr csum =>
    rw [need] at hneed
    obtain ⟨t, hexec, hrun⟩ := framePacketIsBuildFrame prelen paylen hdr csum s (s.input.take prelen.toNat)
      ((s.input.drop prelen.toNat).take paylen.toNat) (s.input.drop (prelen.toNat + paylen.toNat)) hidle
      hready hsched
      (by rw [List.append_assoc, ← List.drop_drop, List.take_append_drop, List.take_append_drop])
      (List.length_take_of_le (by omega)) (List.length_take_of_le (by rw [List.length_drop]; omega))
    refine endsWithItsNeed hexec hrun ?_ hidle rfl rfl rfl (.inl rfl)
    rw [List.length_take_of_le (by omega), List.length_take_of_le (by rw [List.length_drop]; omega), need]

end Sys2Proof.Machine
end

section
/-! PROOFS. With input enough and a ready sink a busy block comes back to IDLE (40_command_execution.md R142, O56).

Of the registers alone, `stepsLeft` bounds the steps the command in flight still takes and `bytesLeft` the bytes it still
pops. No pass of `normalise()` raises either, a Pop and an Emit lower the first, and a Pop lowers the second. -/

namespace Sys2Proof.Machine

variable {c : Config} {b b' : Block} {s t : State} {v : Byte}

/-! ### What a command still has to do -/

/-- The steps the command in flight still takes, End included (R143). -/
def stepsLeft (c : Config) (b : Block) : Nat :=
  match b.phase with
  | .idle => 0
  | .dec => 8 - b.cnt.toNat + 1
  | .enc =>
    if b.haveByte then 5 * ((countField b.cmd).toNat - b.cnt.toNat - 1) + (4 - b.chip.toNat) + 1
    else 5 * ((countField b.cmd).toNat - b.cnt.toNat) + 1
  | .eDrain => (countField b.cmd).toNat - b.cnt.toNat + 1
  | .burst => (c.repeatNum - b.rep.toNat) * c.repLen - b.cnt.toNat + 1
  | .fLead =>
    10 - b.cnt.toNat + (2 * (prelenField b.cmd).toNat + 4 * (hdrField b.cmd).toNat +
      2 * (paylenField b.cmd).toNat + (csumField b.cmd).toNat + 11)
  | .fPre =>
    2 * ((prelenField b.cmd).toNat - b.cnt.toNat) - b.haveByte.toNat +
      (4 * (hdrField b.cmd).toNat + 2 * (paylenField b.cmd).toNat + (csumField b.cmd).toNat + 11)
  | .fHdr =>
    4 * (hdrField b.cmd).toNat - b.cnt.toNat +
      (2 * (paylenField b.cmd).toNat + (csumField b.cmd).toNat + 11)
  | .fPay =>
    2 * ((paylenField b.cmd).toNat - b.cnt.toNat) - b.haveByte.toNat + ((csumField b.cmd).toNat + 11)
  | .fCsum => (csumField b.cmd).toNat - b.cnt.toNat + 11
  | .fTrail => 10 - b.cnt.toNat + 1
  | .finish => 1

/-- The bytes the command in flight still pops (R264). -/
def bytesLeft (b : Block) : Nat :=
  match b.phase with
  | .enc | .eDrain => (countField b.cmd).toNat - b.cnt.toNat - b.haveByte.toNat
  | .fLead => (prelenField b.cmd).toNat + (paylenField b.cmd).toNat
  | .fPre => (prelenField b.cmd).toNat - b.cnt.toNat - b.haveByte.toNat + (paylenField b.cmd).toNat
  | .fHdr => (paylenField b.cmd).toNat
  | .fPay => (paylenField b.cmd).toNat - b.cnt.toNat - b.haveByte.toNat
  | .idle | .dec | .burst | .fCsum | .fTrail | .finish => 0

theorem bytesLeft_le (b : Block) : bytesLeft b ≤ 65535 := by
  have := half_toNat_le (countField b.cmd)
  have := (prelenField b.cmd).isLt
  have := (paylenField b.cmd).isLt
  unfold bytesLeft
  split <;> omega

theorem stepsLeft_le (hc : c.Admissible) (b : Block) : stepsLeft c b ≤ 2 ^ 32 := by
  have := half_toNat_le (countField b.cmd)
  have := (prelenField b.cmd).isLt
  have := (paylenField b.cmd).isLt
  have := (hdrField b.cmd).toNat_le
  have := (csumField b.cmd).toNat_le
  have hburst : (c.repeatNum - b.rep.toNat) * c.repLen ≤ 65535 * 65535 :=
    Nat.mul_le_mul ((Nat.sub_le ..).trans hc.1) (repLen_le hc)
  cases hp : b.phase <;> simp only [stepsLeft, hp]
  case enc => split <;> omega
  all_goals omega

theorem stepsLeft_pos (h : b.phase ≠ .idle) : 0 < stepsLeft c b := by
  cases hp : b.phase <;> simp only [stepsLeft, hp]
  case idle => exact absurd hp h
  case enc => split <;> omega
  all_goals omega

/-! ### A pass of normalise() raises neither -/

theorem bytesLeft_advance_le (c : Config) (b : Block) : bytesLeft (advance c b) ≤ bytesLeft b := by
  cases hp : b.phase <;> simp only [advance, hp]
  case idle | finish => exact le_rfl
  case burst =>
    split
    · exact Nat.zero_le _
    · split
      · exact (by simp [bytesLeft, hp] : bytesLeft b.nextRepetition = 0).trans_le (Nat.zero_le _)
      · exact le_rfl
  all_goals
    split
    · simp [bytesLeft, hp]
    · exact le_rfl

theorem stepsLeft_nextRepetition_le (hc : c.Admissible) (hp : b.phase = .burst)
    (hrep : b.rep.toNat < c.repeatNum) (hcnt : b.cnt.toNat = c.repLen) : stepsLeft c b.nextRepetition ≤ stepsLeft c b := by
  have hnext : (b.rep + 1).toNat = b.rep.toNat + 1 := toNat_add_one_of_lt hrep hc.1
  obtain ⟨k, hk⟩ := Nat.exists_eq_add_of_lt hrep
  have hleft : c.repeatNum - b.rep.toNat = k + 1 := by omega
  have hleft' : c.repeatNum - (b.rep.toNat + 1) = k := by omega
  simp only [stepsLeft, Block.nextRepetition_phase, hp, Block.nextRepetition_rep, Block.nextRepetition_cnt,
    hnext, hleft, hleft', hcnt, Nat.succ_mul, Nat.add_sub_cancel]
  exact Nat.add_le_add_right (Nat.sub_le ..) 1

theorem stepsLeft_advance_le (hc : c.Admissible) (hrep : b.phase = .burst → b.rep.toNat ≤ c.repeatNum) :
    stepsLeft c (advance c b) ≤ stepsLeft c b := by
  cases hp : b.phase <;> simp only [advance, hp]
  case idle | finish => exact le_rfl
  case burst =>
    split
    · simp [stepsLeft, hp]
    · split
      · exact stepsLeft_nextRepetition_le hc hp (lt_of_le_of_ne (hrep hp) ‹_›) ‹_›
      · exact le_rfl
  case enc =>
    split
    · simp only [stepsLeft, Block.setPhase_phase, hp]
      split <;> omega
    · exact le_rfl
  case dec | eDrain | fTrail =>
    split
    · simp only [stepsLeft, Block.setPhase_phase, hp]
      omega
    · exact le_rfl
  all_goals
    split
    · simp only [stepsLeft, Block.enterPhase_phase, Block.enterPhase_cmd, Block.enterPhase_cnt,
        Block.enterPhase_haveByte, hp]
      omega
    · exact le_rfl

/-- What a state still has to do is no more after `normalise()`. -/
theorem left_normalise_le (hc : c.Admissible) (h : b.PreSound c) :
    stepsLeft c (normalise c b) ≤ stepsLeft c b ∧ bytesLeft (normalise c b) ≤ bytesLeft b := by
  have hloop (n : Nat) {b : Block} (h : b.PreSound c) :
      stepsLeft c (advanceTimes c n b) ≤ stepsLeft c b ∧ bytesLeft (advanceTimes c n b) ≤ bytesLeft b := by
    induction n generalizing b with
    | zero => exact ⟨le_rfl, le_rfl⟩
    | succ n ih =>
      obtain ⟨hsteps, hbytes⟩ := ih (h.pass (pass_advance c b))
      obtain ⟨-, hrep⟩ := h.withinLimit
      exact ⟨hsteps.trans (stepsLeft_advance_le hc hrep), hbytes.trans (bytesLeft_advance_le c b)⟩
  exact hloop 6 h

/-! ### A Pop and an Emit lower it -/

theorem limit_le (hc : c.Admissible) (b : Block) : ∀ n ∈ limit c b, n ≤ 65535 := by
  cases hp : b.phase <;> simp only [limit, hp, Option.mem_some_iff, forall_eq']
  case idle | finish => nofun
  case enc | eDrain => exact half_toNat_le _
  case fPre | fPay => exact byte_toNat_le _
  case burst => exact repLen_le hc
  case dec | fLead | fTrail => decide
  case fHdr | fCsum => split <;> decide

/-- In a sound state `CNT` is below its limit and can be stepped without wrapping (R25, R40 (b)); in the form `simp`
leaves a stepped count. -/
theorem Block.BelowLimit.cnt_add_one (hc : c.Admissible) (h : b.BelowLimit c) :
    ∀ n ∈ limit c b, b.cnt.toNat < n ∧ (b.cnt + 1#16).toNat = b.cnt.toNat + 1 := fun n hn =>
  ⟨h.1 n hn, toNat_add_one_of_lt (h.1 n hn) (limit_le hc b n hn)⟩

/-- A Pop leaves fewer steps and one byte less. -/
theorem Popped.left_lt (hc : c.Admissible) (h : b.BelowLimit c) (hb : b.haveByte = false)
    (hpop : Popped c v b b') : stepsLeft c b' < stepsLeft c b ∧ bytesLeft b' + 1 ≤ bytesLeft b := by
  have hcnt := h.cnt_add_one hc
  cases hpop with
  | latch hp | skip hp | drain hp =>
    simp only [limit, hp, Option.mem_some_iff, forall_eq'] at hcnt
    obtain ⟨hlt, hnext⟩ := hcnt
    simp [stepsLeft, bytesLeft, hp, hb, hnext, -BitVec.toNat_add]
    omega
  | reject hp =>
    simp only [limit, hp, Option.mem_some_iff, forall_eq'] at hcnt
    obtain ⟨hlt, hnext⟩ := hcnt
    rw [rejectSymbol_eq]
    simp [stepsLeft, bytesLeft, hp, hb, hnext, -BitVec.toNat_add]
    omega
  | hold hp =>
    obtain hp | hp := hp
    all_goals
      simp only [limit, hp, Option.mem_some_iff, forall_eq'] at hcnt
      obtain ⟨hlt, -⟩ := hcnt
      simp [stepsLeft, bytesLeft, hp, hb]
      omega

/-- An Emit leaves fewer steps and no more bytes. -/
theorem Emitted.left_lt (hc : c.Admissible) (h : b.BelowLimit c)
    (hemit : Emitted b b') : stepsLeft c b' < stepsLeft c b ∧ bytesLeft b' ≤ bytesLeft b := by
  have hcnt := h.cnt_add_one hc
  cases hemit with
  | chip hp hb =>
    simp only [limit, hp, Option.mem_some_iff, forall_eq'] at hcnt
    obtain ⟨hlt, hnext⟩ := hcnt
    by_cases hchip : b.chip = 3
    · rw [Block.nextChip, if_pos hchip]
      simp [stepsLeft, bytesLeft, hp, hb, hchip, hnext, -BitVec.toNat_add]
      omega
    · have hchip' : (b.chip + 1#2).toNat = b.chip.toNat + 1 := by bv_omega
      have := b.chip.isLt
      rw [Block.nextChip, if_neg hchip]
      simp [stepsLeft, bytesLeft, hp, hb, hchip', -BitVec.toNat_add]
      omega
  | preamble hp hb | payload hp hb =>
    simp only [limit, hp, Option.mem_some_iff, forall_eq'] at hcnt
    obtain ⟨hlt, hnext⟩ := hcnt
    simp [stepsLeft, bytesLeft, hp, hb, hnext, -BitVec.toNat_add]
    omega
  | count hp =>
    have hburst (hp : b.phase = .burst) (hlt : b.cnt.toNat < c.repLen) :
        b.cnt.toNat < (c.repeatNum - b.rep.toNat) * c.repLen :=
      hlt.trans_le (Nat.le_mul_of_pos_left _ (Nat.sub_pos_of_lt (h.2 hp)))
    cases hb : b.phase <;>
      simp only [limit, hb, Option.mem_some_iff, forall_eq', Config.silenceLen, Config.hdrLen] at hcnt
    case idle | enc | eDrain | fPre | fPay | finish => simp [Phase.Counts, hb] at hp
    all_goals
      obtain ⟨hlt, hnext⟩ := hcnt
      simp [stepsLeft, bytesLeft, hb, hnext, -BitVec.toNat_add]
    case burst =>
      have := hburst hb hlt
      omega
    case fHdr | fCsum =>
      split at hlt
      · rename_i hflag
        rw [hflag, Bool.toNat_true]
        omega
      · exact absurd hlt (Nat.not_lt_zero _)
    case dec | fLead | fTrail => omega

/-! ### The run to IDLE -/

/-- A busy block with the input it needs: its step leaves fewer steps and input enough for them. -/
theorem busy_step (hs : s.Sound) (hsched : s.schedule = []) (hready : s.sinkReady = true)
    (hbusy : s.block.phase ≠ .idle) (hin : bytesLeft s.block ≤ s.input.length) :
    ∃ t, step s = .next t ∧ t.schedule = [] ∧ t.sinkReady = true ∧ t.config = s.config ∧
      stepsLeft s.config t.block < stepsLeft s.config s.block ∧ bytesLeft t.block ≤ t.input.length := by
  obtain ⟨hc, hsound⟩ := hs
  have hbelow := hsound.belowLimit
  have hcmd : s.block.cmdReady = false := Bool.eq_false_iff.mpr fun h => hbusy (Block.cmdReady_iff.mp h)
  rw [step_of_unscheduled hsched]
  cases hr : s.block.inReady
  · have hv : s.block.outValid = true := hsound.havePhase.outValid_of_not_ready hcmd hr
    by_cases hp : s.block.phase = .finish
    · exact ⟨_, (blockStep_finish hp).trans (endStep_ready hready), hsched, hready, rfl,
        by simp [stepsLeft, hp], Nat.zero_le _⟩
    · obtain ⟨f, e⟩ := blockStep_emit hv hp
      obtain ⟨v, hd⟩ := hsound.outData_eq_some hv
      obtain ⟨hsteps, hbytes⟩ := (emitted hv hp).left_lt hc hbelow
      obtain ⟨hsteps', hbytes'⟩ := left_normalise_le hc (hsound.emitEffect hv)
      rw [hd, emitOr_ready hready] at e
      exact ⟨_, e, hsched, hready, rfl, hsteps'.trans_lt hsteps,
        hbytes'.trans (hbytes.trans hin)⟩
  · obtain ⟨-, hb⟩ := Block.inReady_iff.mp hr
    cases hinput : s.input with
    | nil =>
      obtain ⟨-, hbytes⟩ := (popped hr s.config 0).left_lt hc hbelow hb
      simp [hinput] at hin
      omega
    | cons v rest =>
      obtain ⟨hsteps, hbytes⟩ := (popped hr s.config v).left_lt hc hbelow hb
      obtain ⟨hsteps', hbytes'⟩ := left_normalise_le hc (hsound.popEffect hr v)
      rw [hinput, List.length_cons] at hin
      exact ⟨_, (blockStep_pop hr).trans (pop_cons hinput), hsched, hready, rfl, hsteps'.trans_lt hsteps,
        hbytes'.trans (Nat.le_of_succ_le_succ (hbytes.trans hin))⟩

/-- The run of a busy block, of at most `stepsLeft` steps. -/
theorem run_to_idle (n : Nat) (hs : s.Sound) (hsched : s.schedule = []) (hready : s.sinkReady = true)
    (hin : bytesLeft s.block ≤ s.input.length) (hn : stepsLeft s.config s.block ≤ n) :
    ∃ (m : Nat) (t : State), m ≤ n ∧ Host.Core.run core m s = .next t ∧ t.block.phase = .idle := by
  induction n generalizing s with
  | zero =>
    have hidle : s.block.phase = .idle := Decidable.byContradiction fun h => (stepsLeft_pos h).not_ge hn
    exact ⟨0, s, le_rfl, rfl, hidle⟩
  | succ n ih =>
    by_cases hbusy : s.block.phase = .idle
    · exact ⟨0, s, Nat.zero_le _, rfl, hbusy⟩
    · obtain ⟨t, hstep, hsched', hready', hconfig, hsteps, hin'⟩ := busy_step hs hsched hready hbusy hin
      obtain ⟨m, u, hm, hrun, hidle⟩ := ih (everyStepKeepsSoundness s t hs hstep) hsched' hready' hin'
        (by rw [hconfig]; omega)
      exact ⟨m + 1, u, by omega, (run_succ hstep).trans hrun, hidle⟩

/-- Settles O56: 65535 bytes are enough for any command, and 2^32 steps. -/
theorem busyBlockReturnsToIdle : Obligations.BusyBlockReturnsToIdle := fun s hs hsched hready hin =>
  run_to_idle (2 ^ 32) hs hsched hready ((bytesLeft_le s.block).trans hin) (stepsLeft_le hs.1 s.block)

end Sys2Proof.Machine
end
